-- ==== Sys2Proof/Word.lean ====
section
/-! DEFINITION. Word.lean: the two bit widths of QT2-BC (00_scope.md R6, R10). -/

namespace Sys2Proof

/-- `byte`: an unsigned 8-bit value (00_scope.md R10). -/
abbrev Byte := BitVec 8

/-- `i64`: a 64-bit two's-complement value, the width `XLEN` of every stack entry, local register and literal
(00_scope.md R6, R10). -/
abbrev Word := BitVec 64

/-- `MIN = -2^63` (00_scope.md R10). -/
def minWord : Word := 0x8000000000000000

/-- `MAX = 2^63 - 1` (00_scope.md R10). -/
def maxWord : Word := 0x7FFFFFFFFFFFFFFF

end Sys2Proof
end

