-- ==== Sys2Proof/Config.lean ====
section
/-! DEFINITION. Config.lean: what an implementation fixes (00_scope.md R6) and the free values of a faulted instance
(60_exceptions.md R88). -/

namespace Sys2Proof

/-- The two open parameters of 00_scope.md R6. Every other parameter of that table has one value.
They stand in State (log entry 2), so that a statement about every state holds for every value of them. -/
structure Params where
  /-- `MAX_PROG_LEN`: the longest Program the model admits (R6, R7; decision D3). -/
  maxProgLen : Nat
  /-- `STACK_DEPTH`: the capacity of the operand stack in entries, `none` for the unbounded baseline (R6; 10_state.md R19;
  decision D5). -/
  stackDepth : Option Nat
  deriving DecidableEq, Repr

/-- The default of both parameters: 256 bytes, an unbounded stack (00_scope.md R6). -/
def Params.baseline : Params := { maxProgLen := 256, stackDepth := none }

/-- A finite `STACK_DEPTH` is at least 1 (92_eei_decisions.md D5). -/
def Params.legal (p : Params) : Bool :=
  match p.stackDepth with
  | none => true
  | some d => decide (1 ≤ d)

/-- `NLOCALS`: the number of local registers (00_scope.md R6; 10_state.md R15). -/
abbrev nLocals : Nat := 8

/-- The local register file `x[0..7]` (10_state.md R15). -/
abbrev Locals := Vector Word nLocals

/-- FREE VALUE: what `pc` holds after a fault (60_exceptions.md R88; log entry 3). -/
opaque Config.undefinedPc : Nat → Nat

/-- FREE VALUE: what the operand stack holds after a fault (60_exceptions.md R88; log entry 3). -/
opaque Config.undefinedStack : Nat → List Word

/-- FREE VALUE: what the registers hold after a fault (60_exceptions.md R88; log entry 3). -/
opaque Config.undefinedLocals : Nat → Locals

end Sys2Proof
end

