-- ==== Sys2Proof/Syntax.lean ====
section
/-! DEFINITION. Syntax.lean: the closed set of ten instructions (30_encoding.md R46, R47), one constructor per row of
spec/opcode_table.json. -/

namespace Sys2Proof

/-- An instruction term. Operands carry every value their field can encode (30_encoding.md R43, R44, R45): an `idx` of 8 to
255 is a term too, and faults when executed (R49). -/
inductive Instr where
  /-- opcode 0, format N (42_control.md R67) -/
  | halt
  /-- opcode 1, format C (41_data_movement.md R64) -/
  | pushConst (imm : Word)
  /-- opcode 2, format I (41_data_movement.md R65) -/
  | storeLocal (idx : Byte)
  /-- opcode 3, format I (41_data_movement.md R66) -/
  | loadLocal (idx : Byte)
  /-- opcode 4, format T (42_control.md R68) -/
  | jump (tgt : Byte)
  /-- opcode 5, format T (42_control.md R69) -/
  | jumpIfZero (tgt : Byte)
  /-- opcode 6, format N (43_arithmetic.md R74) -/
  | mul
  /-- opcode 7, format N (43_arithmetic.md R75) -/
  | rem
  /-- opcode 8, format N (43_arithmetic.md R76) -/
  | lessThan
  /-- opcode 9, format N (43_arithmetic.md R77) -/
  | increment
  deriving DecidableEq, Repr

end Sys2Proof
end

