-- ==== Sys2Proof/WellFormed.lean ====
section
/-! DEFINITION. WellFormed.lean: which instruction terms respect the static obligation on operands. -/

namespace Sys2Proof

/-- The operand values of 30_encoding.md R49 that are not illegal, which is obligation (c) of 70_reset_and_hazards.md R103:
register indices are 0 to 7. Every `imm` and every `tgt` is legal as an encoding (R44, R45). The machine does not check
this in advance; an ill-formed term decodes and faults when executed. -/
def Instr.wellFormed : Instr → Bool
  | .halt => true
  | .pushConst _ => true
  | .storeLocal idx => decide (idx.toNat < nLocals)
  | .loadLocal idx => decide (idx.toNat < nLocals)
  | .jump _ => true
  | .jumpIfZero _ => true
  | .mul => true
  | .rem => true
  | .lessThan => true
  | .increment => true

end Sys2Proof
end

