-- ==== Sys2Proof/Decode.lean ====
section
/-! DEFINITION. Decode.lean: the Program port, the Cursor Decoder's reads, the decoder and the encoder
(20_memory.md R30 to R34, R41; 30_encoding.md R42 to R52; 40_decoder.md R55, R56, R59). -/

namespace Sys2Proof

/-- The read port into the Program space: `PROG_LEN` beside a function from addresses to bytes (20_memory.md R41).
What `byteAt` answers at or past `len` is never used. -/
structure ProgramPort where
  len : Nat
  byteAt : Nat → Byte

/-- Why decoding fails (40_decoder.md R59). -/
inductive DecodeError where
  /-- An opcode or operand byte lies past the end of the Program (20_memory.md R31; 30_encoding.md R50). -/
  | outOfBounds
  /-- The opcode byte is 10 to 255 (30_encoding.md R48). -/
  | invalidOpcode
  deriving DecidableEq, Repr

/-- `MemRead(addr, n)`: in bounds exactly when `addr + n <= PROG_LEN`, checked on the whole access
(00_scope.md R10; 20_memory.md R30, R31). -/
def memRead (port : ProgramPort) (addr n : Nat) : Option (List Byte) :=
  if addr + n ≤ port.len then some ((List.range n).map fun k => port.byteAt (addr + k)) else none

/-- `le64(b0, ..., b7)`: `b0`, at the lowest address, is the least significant byte (00_scope.md R10; 20_memory.md R32). -/
def le64 (b0 b1 b2 b3 b4 b5 b6 b7 : Byte) : Word :=
  BitVec.ofNat 64 (b0.toNat + b1.toNat * 2 ^ 8 + b2.toNat * 2 ^ 16 + b3.toNat * 2 ^ 24 + b4.toNat * 2 ^ 32
    + b5.toNat * 2 ^ 40 + b6.toNat * 2 ^ 48 + b7.toNat * 2 ^ 56)

/-- `read_u8()` at cursor `pos`: the byte there and the advanced cursor (40_decoder.md R55). -/
def readU8 (port : ProgramPort) (pos : Nat) : Except DecodeError (Byte × Nat) :=
  match memRead port pos 1 with
  | some [b] => .ok (b, pos + 1)
  | _ => .error .outOfBounds

/-- `read_i64()` at cursor `pos`: the eight bytes there as a little-endian word and the advanced cursor
(40_decoder.md R56). -/
def readI64 (port : ProgramPort) (pos : Nat) : Except DecodeError (Word × Nat) :=
  match memRead port pos 8 with
  | some [b0, b1, b2, b3, b4, b5, b6, b7] => .ok (le64 b0 b1 b2 b3 b4 b5 b6 b7, pos + 8)
  | _ => .error .outOfBounds

/-- `Decode(PROG, p)`: the instruction whose opcode byte stands at `pos` and the address just past it, in the order of the
fetch half of `step()` (40_decoder.md R58, R59; the opcode map is 30_encoding.md R46). Total on every Program and address. -/
def decode (port : ProgramPort) (pos : Nat) : Except DecodeError (Instr × Nat) := do
  let (op, afterOp) ← readU8 port pos
  match op.toNat with
  | 0 => .ok (.halt, afterOp)
  | 1 => do
    let (imm, next) ← readI64 port afterOp
    .ok (.pushConst imm, next)
  | 2 => do
    let (idx, next) ← readU8 port afterOp
    .ok (.storeLocal idx, next)
  | 3 => do
    let (idx, next) ← readU8 port afterOp
    .ok (.loadLocal idx, next)
  | 4 => do
    let (tgt, next) ← readU8 port afterOp
    .ok (.jump tgt, next)
  | 5 => do
    let (tgt, next) ← readU8 port afterOp
    .ok (.jumpIfZero tgt, next)
  | 6 => .ok (.mul, afterOp)
  | 7 => .ok (.rem, afterOp)
  | 8 => .ok (.lessThan, afterOp)
  | 9 => .ok (.increment, afterOp)
  | _ => .error .invalidOpcode

/-- Byte `k` of a 64-bit pattern, `v[8k+7 : 8k]` (30_encoding.md R45, R52). -/
def byteOf (v : Word) (k : Nat) : Byte := v.extractLsb' (8 * k) 8

/-- `Enc`, the inverse of the decoder (30_encoding.md R52). -/
def encode : Instr → List Byte
  | .halt => [0x00]
  | .pushConst v =>
    [0x01, byteOf v 0, byteOf v 1, byteOf v 2, byteOf v 3, byteOf v 4, byteOf v 5, byteOf v 6, byteOf v 7]
  | .storeLocal idx => [0x02, idx]
  | .loadLocal idx => [0x03, idx]
  | .jump tgt => [0x04, tgt]
  | .jumpIfZero tgt => [0x05, tgt]
  | .mul => [0x06]
  | .rem => [0x07]
  | .lessThan => [0x08]
  | .increment => [0x09]

/-- A Program is the concatenation of its instructions' encodings, with nothing between them (30_encoding.md R42, R52). -/
def encodeProgram (is : List Instr) : List Byte := is.flatMap encode

/-- The length in bytes of an instruction: 1, 2 or 9 (30_encoding.md R42, R46). -/
def Instr.length : Instr → Nat
  | .halt => 1
  | .pushConst _ => 9
  | .storeLocal _ => 2
  | .loadLocal _ => 2
  | .jump _ => 2
  | .jumpIfZero _ => 2
  | .mul => 1
  | .rem => 1
  | .lessThan => 1
  | .increment => 1

/-- The longest instruction, in bytes (30_encoding.md R42). -/
def maxInstrLength : Nat := 9

/-- A Program given as a plain sequence of bytes (20_memory.md R41: "or simply as a byte array"). -/
def portOfBytes (bytes : List Byte) : ProgramPort where
  len := bytes.length
  byteAt a := bytes.getD a 0

/-- The bytes of an instruction whose first `nbits` bits are `w`, byte 0 holding bits 7..0, byte 1 bits 15..8 and so on
(the numbering of spec/opcode_table.json), every byte up to the longest instruction given and every bit above `nbits` zero. -/
def tableWordBytes (nbits w : Nat) : List Byte :=
  (List.range maxInstrLength).map fun k => BitVec.ofNat 8 (w % 2 ^ nbits / 2 ^ (8 * k))

/-- The instruction the decoder reads from a table word, `none` where it refuses. -/
def decodeTableWord (nbits w : Nat) : Option Instr :=
  match decode (portOfBytes (tableWordBytes nbits w)) 0 with
  | .ok (i, _) => some i
  | .error _ => none

end Sys2Proof
end

