-- ==== Sys2Proof/Machine/State.lean ====
section
/-! DEFINITION. Machine/State.lean: everything the spec gives the machine, as plain data, and its reset value
(10_state.md R13 to R27, R25; 00_scope.md R6). -/

namespace Sys2Proof.Machine

open Sys2Proof

/-- `run_state` (10_state.md R20): exactly three values. -/
inductive RunState where
  | running
  | halted
  | faulted
  deriving DecidableEq, Repr

/-- The values of `fault_kind` other than None (10_state.md R21; 60_exceptions.md R78 to R85). These are ARCHITECTURAL: a
step that raises one ends in a next state whose `runState` is `faulted` (60_exceptions.md R88). -/
inductive FaultKind where
  /-- A pop found the operand stack empty (60_exceptions.md R79). -/
  | stackUnderflow
  /-- A StoreLocal or LoadLocal index was 8 to 255 (60_exceptions.md R80). -/
  | invalidLocalIndex
  /-- The opcode byte was 10 to 255 (60_exceptions.md R81). -/
  | invalidOpcode
  /-- The decoder read or repositioned past the end of the Program (60_exceptions.md R82). -/
  | outOfBounds
  /-- The right operand of Rem was zero (60_exceptions.md R83). -/
  | divisionByZero
  /-- A push found the stack full; only with a finite `STACK_DEPTH` (60_exceptions.md R84). -/
  | stackOverflow
  deriving DecidableEq, Repr

/-- Why the MODEL has no next state: the state has no step. These are not the spec's faults, which are `FaultKind`s. -/
inductive Fault where
  /-- Raised by `step` in Halted: "Halted and Faulted have no step: nothing but reset leaves them" (10_state.md R20).
  Safe: the hardware takes no step there either. -/
  | haltedHasNoStep
  /-- Raised by `step` in Faulted, for the same sentence of 10_state.md R20. Safe: the hardware takes no step there either. -/
  | faultedHasNoStep
  deriving DecidableEq, Repr

/-- What the model gives no meaning to (00_scope.md R11, "Refused"). -/
inductive Refusal where
  /-- Raised by no arm of `exec`: every instruction has its meaning. Safe. -/
  | notModelled (mnemonic : String)
  /-- Raised by `step` when `PROG_LEN > MAX_PROG_LEN` (00_scope.md R7, R11). Safe: nothing is claimed of such a run. -/
  | programTooLong
  /-- Raised by `run` when the state it is given is not the reset state (70_reset_and_hazards.md R97). Safe: nothing is claimed
  of such a run. -/
  | notResetState
  deriving DecidableEq, Repr

/-- The bytes of the Program space (20_memory.md R28): address and byte pairs, addresses strictly rising, no pair holding the
byte that an unlisted address reads as. -/
abbrev Memory := List Host.Cell

/-- The state of one instance together with the arguments of its run. -/
structure State where
  /-- The cursor, a byte offset that never wraps (10_state.md R13). -/
  pc : Nat
  /-- `x[0..7]` (10_state.md R15). -/
  locals : Locals
  /-- The operand stack, TOP FIRST: the head is `S[depth-1]`, the last element `S[0]` (10_state.md R17; log entry 4). -/
  stack : List Word
  /-- `run_state` (10_state.md R20). -/
  runState : RunState
  /-- `fault_kind`, `none` for None (10_state.md R21). -/
  faultKind : Option FaultKind
  /-- `PROG`, an argument of the run (20_memory.md R28; log entry 1). -/
  prog : Memory
  /-- `PROG_LEN`, an argument of the run (00_scope.md R6; log entry 1). -/
  progLen : Nat
  /-- `MAX_PROG_LEN` and `STACK_DEPTH` (00_scope.md R6; log entry 2). -/
  params : Params
  /-- The model's own: which free values the next fault takes (log entry 3). -/
  freeCount : Nat
  deriving DecidableEq, Repr

/-- The machine right after reset (10_state.md R25; 70_reset_and_hazards.md R96), with no Program supplied yet (log entry 1)
and the parameters at their defaults (00_scope.md R6; log entry 2). -/
def State.reset : State where
  pc := 0
  locals := Vector.replicate nLocals 0
  stack := []
  runState := .running
  faultKind := none
  prog := []
  progLen := 0
  params := Params.baseline
  freeCount := 0

end Sys2Proof.Machine
end

