-- ==== Sys2Proof/Machine/Ops.lean ====
section
/-! DEFINITION. Machine/Ops.lean: the named operations over the Program space, the cursor, the operand stack and the
registers, and the ONE operation that takes a fault (00_scope.md R10; 20_memory.md; 40_decoder.md R57; 60_exceptions.md R88). -/

namespace Sys2Proof.Machine

open Sys2Proof

/-! ### The Program space as plain data -/

/-- What an address that the list does not name reads as: the byte 00 is written down by leaving it out (log entry 1). -/
def Memory.unlisted : Byte := 0

/-- The byte at an address. -/
def Memory.read : Memory → Nat → Byte
  | [], _ => Memory.unlisted
  | (a, b) :: rest, k => if a = k then b else Memory.read rest k

/-- One pair in front, left out where it would hold the unlisted byte. -/
def Memory.cons (k : Nat) (v : Byte) (rest : Memory) : Memory :=
  if v = Memory.unlisted then rest else (k, v) :: rest

/-- The list with the byte at `k` replaced, in canonical form. Used only by the host's supply of a Program: no instruction
writes the Program space (20_memory.md R29). -/
def Memory.write : Memory → Nat → Byte → Memory
  | [], k, v => Memory.cons k v []
  | (a, b) :: rest, k, v =>
    if k < a then Memory.cons k v ((a, b) :: rest)
    else if k = a then Memory.cons k v rest
    else (a, b) :: Memory.write rest k v

/-- Bytes written from an address on. -/
def Memory.load (m : Memory) (start : Nat) : List Byte → Memory
  | [] => m
  | b :: bs => Memory.load (Memory.write m start b) (start + 1) bs

/-- The canonical form: addresses strictly rising, no pair holding the unlisted byte. -/
abbrev Memory.wf (m : Memory) : Prop :=
  m.Pairwise (fun c d => c.1 < d.1) ∧ ∀ c ∈ m, c.2 ≠ Memory.unlisted

/-- Every listed address lies inside a Program of `len` bytes (20_memory.md R28). -/
abbrev Memory.within (m : Memory) (len : Nat) : Prop := ∀ c ∈ m, c.1 < len

/-- The Program port the state presents (20_memory.md R41). -/
def State.port (s : State) : ProgramPort where
  len := s.progLen
  byteAt := s.prog.read

/-! ### Named updates of the state -/

/-- `pc <- p` (00_scope.md R10). -/
def setPc (p : Nat) (s : State) : State := { s with pc := p }

/-- The operand stack replaced (top first). -/
def setStack (st : List Word) (s : State) : State := { s with stack := st }

/-- The register file replaced. -/
def setLocals (l : Locals) (s : State) : State := { s with locals := l }

/-- `x[i] <- v`, all 64 bits (10_state.md R16). No register is hard-wired (R15). -/
def setLocal (i : Fin nLocals) (v : Word) (s : State) : State := setLocals (s.locals.set i v) s

/-- `x[i]` (10_state.md R16). -/
def getLocal (i : Fin nLocals) (s : State) : Word := s.locals.get i

/-- `halt`: `run_state <- Halted` (00_scope.md R10; 42_control.md R67). -/
def halt (s : State) : State := { s with runState := .halted }

/-- The Program and its length replaced: the host's supply of a Program, never an instruction (70_reset_and_hazards.md R99). -/
def setProgram (m : Memory) (len : Nat) (s : State) : State := { s with prog := m, progLen := len }

/-- `depth`, the number of stack entries (10_state.md R17). -/
def State.depth (s : State) : Nat := s.stack.length

/-! ### Taking a fault -/

/-- `raise K`: `run_state <- Faulted; fault_kind <- K`, no control transfer, nothing saved; `pc`, `S` and every `x[i]` then
hold no defined value and are free values (00_scope.md R10; 60_exceptions.md R88; log entry 3). There is no return
from a fault (60_exceptions.md R90); `resetInput` is the only exit. -/
def raise (k : FaultKind) (s : State) : State :=
  { s with
    runState := .faulted
    faultKind := some k
    pc := Config.undefinedPc s.freeCount
    stack := Config.undefinedStack s.freeCount
    locals := Config.undefinedLocals s.freeCount
    freeCount := s.freeCount + 1 }

/-- How an execute stage ends: its whole effect, or one fault and nothing else (00_scope.md R8; 60_exceptions.md R87). -/
def finish (s : State) : Except FaultKind State → Host.Outcome State Fault Refusal
  | .ok t => .next t
  | .error k => .next (raise k s)

/-! ### The operations an execute stage is built from -/

/-- `pop()` (00_scope.md R10; 60_exceptions.md R79). -/
def pop (s : State) : Except FaultKind (Word × State) :=
  match s.stack with
  | [] => .error .stackUnderflow
  | v :: rest => .ok (v, setStack rest s)

/-- `push(v)`: with a finite `STACK_DEPTH` and `depth = STACK_DEPTH` it raises StackOverflow (00_scope.md R10;
10_state.md R19). -/
def push (v : Word) (s : State) : Except FaultKind State :=
  if s.params.stackDepth = some s.depth then .error .stackOverflow else .ok (setStack (v :: s.stack) s)

/-- `set_position(p)`: the position at the end is accepted, past it is not (40_decoder.md R57). -/
def setPosition (p : Nat) (s : State) : Except FaultKind State :=
  if s.progLen < p then .error .outOfBounds else .ok (setPc p s)

/-- The fault kind a failed decode raises (40_decoder.md R59). -/
def decodeFault : DecodeError → FaultKind
  | .outOfBounds => .outOfBounds
  | .invalidOpcode => .invalidOpcode

/-- The fetch and decode half of a step: `Decode(PROG, pc)` (40_decoder.md R58, R59). -/
def fetch (s : State) : Except FaultKind (Instr × Nat) :=
  match decode s.port s.pc with
  | .ok r => .ok r
  | .error e => .error (decodeFault e)

end Sys2Proof.Machine
end

