-- ==== Sys2Proof/Machine/Operands.lean ====
section
/-! DEFINITION. Machine/Operands.lean: the operand forms of the instructions (30_encoding.md R43, R44) and the two shapes
of stack operand (43_arithmetic.md R71). -/

namespace Sys2Proof.Machine

open Sys2Proof

/-- The register operand of format I: an unsigned byte, validated against the register count and never masked
(30_encoding.md R43, R49; 60_exceptions.md R80). -/
def indexOperand (idx : Byte) : Except FaultKind (Fin nLocals) :=
  if h : idx.toNat < nLocals then .ok ⟨idx.toNat, h⟩ else .error .invalidLocalIndex

/-- The target operand of format T: an unsigned byte, an absolute byte offset, `zext_8(tgt)` (30_encoding.md R44). -/
def targetOperand (tgt : Byte) : Nat := tgt.toNat

/-- One stack operand replaced by one result (43_arithmetic.md R77). -/
def unaryOp (f : Word → Except FaultKind Word) (s : State) : Except FaultKind State := do
  let (a, s1) ← pop s
  let r ← f a
  push r s1

/-- Two stack operands replaced by one result: the first popped is the right operand `b`, the second the left operand `a`
(43_arithmetic.md R71). -/
def binaryOp (f : Word → Word → Except FaultKind Word) (s : State) : Except FaultKind State := do
  let (b, s1) ← pop s
  let (a, s2) ← pop s1
  let r ← f a b
  push r s2

end Sys2Proof.Machine
end

