-- ==== Sys2Proof/Machine/Flags.lean ====
section
/-! DEFINITION. Machine/Flags.lean: conditions. The machine has NO flags, condition codes or predicates (10_state.md R23):
a comparison delivers a word, and the one conditional instruction tests a popped word. -/

namespace Sys2Proof.Machine

open Sys2Proof

/-- A comparison's result as a word: 1 for true, 0 for false (10_state.md R23; 43_arithmetic.md R76). -/
def boolWord (c : Bool) : Word := if c then 1 else 0

/-- The condition of JumpIfZero: all 64 bits are zero (42_control.md R69). -/
def isZero (v : Word) : Bool := v == 0

/-- The signed order of two words: the comparison of their mathematical values (00_scope.md R10; 43_arithmetic.md R76). -/
def signedLess (a b : Word) : Bool := decide (a.toInt < b.toInt)

end Sys2Proof.Machine
end

