-- ==== Sys2Proof/Machine/Arithmetic.lean ====
section
/-! DEFINITION. Machine/Arithmetic.lean: Mul, Rem, LessThan, Increment and the laws they share (43_arithmetic.md). -/

namespace Sys2Proof.Machine

open Sys2Proof

/-- `wrap64(n)`: the low 64 bits of `n` in two's complement (00_scope.md R10; 43_arithmetic.md R70). -/
def wrap64 (n : Int) : Word := BitVec.ofInt 64 n

/-- The named case `trem(MIN, -1)` (43_arithmetic.md R73, decision D9; 93_implementation_defined.md U4; log entry 5). -/
def remMinByMinusOne : Word := 0

/-- `trem(a, b)` for `b != 0`: the remainder of the quotient rounded toward zero (43_arithmetic.md R72, R73). -/
def trem (a b : Word) : Word :=
  if a = minWord ∧ b = -1 then remMinByMinusOne else wrap64 (a.toInt.tmod b.toInt)

/-- The computation of Rem: a zero divisor faults whatever the dividend is (43_arithmetic.md R75; 60_exceptions.md R83). -/
def remOrFault (a b : Word) : Except FaultKind Word :=
  if b = 0 then .error .divisionByZero else .ok (trem a b)

/-- `Mul` (43_arithmetic.md R74). -/
def execMul (s : State) : Host.Outcome State Fault Refusal :=
  finish s (binaryOp (fun a b => .ok (wrap64 (a.toInt * b.toInt))) s)

/-- `Rem` (43_arithmetic.md R75). -/
def execRem (s : State) : Host.Outcome State Fault Refusal :=
  finish s (binaryOp remOrFault s)

/-- `LessThan` (43_arithmetic.md R76). -/
def execLessThan (s : State) : Host.Outcome State Fault Refusal :=
  finish s (binaryOp (fun a b => .ok (boolWord (signedLess a b))) s)

/-- `Increment` (43_arithmetic.md R77). -/
def execIncrement (s : State) : Host.Outcome State Fault Refusal :=
  finish s (unaryOp (fun a => .ok (wrap64 (a.toInt + 1))) s)

end Sys2Proof.Machine
end

