-- ==== Sys2Proof/Machine/Control.lean ====
section
/-! DEFINITION. Machine/Control.lean: Halt, Jump, JumpIfZero (42_control.md). -/

namespace Sys2Proof.Machine

open Sys2Proof

/-- `Halt` (42_control.md R67). -/
def execHalt (s : State) : Host.Outcome State Fault Refusal :=
  finish s (.ok (halt s))

/-- `Jump tgt` (42_control.md R68). -/
def execJump (tgt : Byte) (s : State) : Host.Outcome State Fault Refusal :=
  finish s (setPosition (targetOperand tgt) s)

/-- `JumpIfZero tgt`: a target is examined only when the jump is taken (42_control.md R69). -/
def execJumpIfZero (tgt : Byte) (s : State) : Host.Outcome State Fault Refusal :=
  finish s do
    let (v, s1) ← pop s
    if isZero v then setPosition (targetOperand tgt) s1 else .ok s1

end Sys2Proof.Machine
end

