-- ==== Sys2Proof/Machine/DataMovement.lean ====
section
/-! DEFINITION. Machine/DataMovement.lean: PushConst, StoreLocal, LoadLocal (41_data_movement.md). -/

namespace Sys2Proof.Machine

open Sys2Proof

/-- `PushConst imm` (41_data_movement.md R64). -/
def execPushConst (imm : Word) (s : State) : Host.Outcome State Fault Refusal :=
  finish s (push imm s)

/-- `StoreLocal idx`: the index is validated before the pop (41_data_movement.md R65; 40_decoder.md R60). -/
def execStoreLocal (idx : Byte) (s : State) : Host.Outcome State Fault Refusal :=
  finish s do
    let i ← indexOperand idx
    let (v, s1) ← pop s
    .ok (setLocal i v s1)

/-- `LoadLocal idx` (41_data_movement.md R66). -/
def execLoadLocal (idx : Byte) (s : State) : Host.Outcome State Fault Refusal :=
  finish s do
    let i ← indexOperand idx
    push (getLocal i s) s

end Sys2Proof.Machine
end

