-- ==== Sys2Proof/Machine/Dispatch.lean ====
section
/-! DEFINITION. Machine/Dispatch.lean: one arm per instruction (40_decoder.md R58). When an arm's meaning starts, `pc` is
already past the instruction's last byte (R62). -/

namespace Sys2Proof.Machine

open Sys2Proof

def exec (i : Instr) (s : State) : Host.Outcome State Fault Refusal :=
  match i with
  | .halt => Sys2Proof.Machine.execHalt s
  | .pushConst imm => Sys2Proof.Machine.execPushConst imm s
  | .storeLocal idx => Sys2Proof.Machine.execStoreLocal idx s
  | .loadLocal idx => Sys2Proof.Machine.execLoadLocal idx s
  | .jump tgt => Sys2Proof.Machine.execJump tgt s
  | .jumpIfZero tgt => Sys2Proof.Machine.execJumpIfZero tgt s
  | .mul => Sys2Proof.Machine.execMul s
  | .rem => Sys2Proof.Machine.execRem s
  | .lessThan => Sys2Proof.Machine.execLessThan s
  | .increment => Sys2Proof.Machine.execIncrement s

end Sys2Proof.Machine
end

