-- ==== Sys2Proof/Machine/Step.lean ====
section
/-! DEFINITION. Machine/Step.lean: one step of the machine (40_decoder.md R58, R59), and the state in which the next step
runs a given instruction word. -/

namespace Sys2Proof.Machine

open Sys2Proof

/-- `step()`: enabled only while Running (10_state.md R20; 40_decoder.md R58); a Program longer than `MAX_PROG_LEN` is refused
(00_scope.md R7); otherwise decode at `pc`, raise what decoding raises, or move `pc` past the instruction and
execute it (40_decoder.md R59). -/
def step (s : State) : Host.Outcome State Fault Refusal :=
  match s.runState with
  | .halted => .fault .haltedHasNoStep
  | .faulted => .fault .faultedHasNoStep
  | .running =>
    if s.params.maxProgLen < s.progLen then .refused .programTooLong
    else
      match fetch s with
      | .error k => .next (raise k s)
      | .ok (i, next) => exec i (setPc next s)

/-- The state in which the next step fetches and runs the instruction word `w`: its bytes stand at `pc`, the Program reaches
past them and is admitted, and the machine is Running (log entry 6: it stands for the host's supply of a Program). -/
def State.withFetchWord (s : State) (nbits w : Nat) : State :=
  let len := max s.progLen (s.pc + maxInstrLength)
  { s with
    prog := s.prog.load s.pc (tableWordBytes nbits w)
    progLen := len
    params := { s.params with maxProgLen := max s.params.maxProgLen len }
    runState := .running
    faultKind := none }

end Sys2Proof.Machine
end

