-- ==== Sys2Proof/Machine/Lifecycle.lean ====
section
/-! DEFINITION. Machine/Lifecycle.lean: the host's side of a run (70_reset_and_hazards.md R96 to R102): supplying a Program,
the `reset` input, a run from the reset state, and what the host reads at its end. -/

namespace Sys2Proof.Machine

open Sys2Proof

/-- The host puts a Program on the port and fixes its length (70_reset_and_hazards.md R99 step 1; 20_memory.md R41). -/
def supplyProgram (bytes : List Byte) (s : State) : State :=
  setProgram (Memory.load [] 0 bytes) bytes.length s

/-- The `reset` input: every piece of the instance's state takes its reset value, from any state (70_reset_and_hazards.md R96;
10_state.md R25). The Program, its length and the parameters are no state of the instance and stay; the model's own
`freeCount` stays, so that two faults of one history never share a free value (log entry 7). -/
def resetInput (s : State) : State :=
  { State.reset with prog := s.prog, progLen := s.progLen, params := s.params, freeCount := s.freeCount }

/-- The snapshot of a run that ended in Halted: `S` listed bottom first, and `x[0..7]` (10_state.md R24). -/
structure Snapshot where
  stack : List Word
  locals : Locals
  deriving DecidableEq, Repr

/-- What a run that has ended delivers (70_reset_and_hazards.md R100). -/
inductive RunResult where
  /-- Ended in Halted: the snapshot. -/
  | halted (snapshot : Snapshot)
  /-- Ended in Faulted: the `fault_kind` output alone. -/
  | faulted (kind : Option FaultKind)
  deriving DecidableEq, Repr

/-- The read-only view of stack and registers, valid only in Halted (70_reset_and_hazards.md R102; 10_state.md R24). -/
def snapshot (s : State) : Option Snapshot :=
  match s.runState with
  | .halted => some { stack := s.stack.reverse, locals := s.locals }
  | _ => none

/-- What the host reads: nothing while the instance is Running (70_reset_and_hazards.md R100, R101). -/
def outcomeOf (s : State) : Option RunResult :=
  match s.runState with
  | .running => none
  | .halted => (snapshot s).map .halted
  | .faulted => some (.faulted s.faultKind)

/-- How a bounded execution of a run ends. -/
inductive RunEnd where
  /-- The run ended within the fuel. -/
  | ended (r : RunResult)
  /-- The fuel is spent while the instance is Running: says nothing about the run (70_reset_and_hazards.md R104). -/
  | outOfFuel
  /-- The model gives the run no meaning (00_scope.md R11). -/
  | refused (r : Refusal)
  deriving DecidableEq, Repr

/-- At most `fuel` steps, stopping where the run ends (40_decoder.md R61). Fuel is outside the semantics. -/
def runSteps : Nat → State → RunEnd
  | fuel, s =>
    match outcomeOf s with
    | some r => .ended r
    | none =>
      match fuel with
      | 0 => .outOfFuel
      | fuel + 1 =>
        match step s with
        | .next t => runSteps fuel t
        | .fault _ => .outOfFuel
        | .refused r => .refused r

/-- `run(PROG)`: a run starts from the reset state and from no other (40_decoder.md R61; 70_reset_and_hazards.md R97). -/
def run (fuel : Nat) (s : State) : RunEnd :=
  if s = resetInput s then runSteps fuel s else .refused .notResetState

/-- The `run_state` wires: 0 Running, 1 Halted, 2 Faulted; 3 is never produced (10_state.md R27). -/
def runStateCode : RunState → BitVec 2
  | .running => 0
  | .halted => 1
  | .faulted => 2

/-- The `fault_kind` wires (60_exceptions.md R85); 7 is never produced. -/
def faultCode : Option FaultKind → BitVec 3
  | none => 0
  | some .stackUnderflow => 1
  | some .invalidLocalIndex => 2
  | some .invalidOpcode => 3
  | some .outOfBounds => 4
  | some .divisionByZero => 5
  | some .stackOverflow => 6

end Sys2Proof.Machine
end

