-- ==== Sys2Proof/Safety.lean ====
section
/-! DEFINITION. Safety.lean: the terms claims are stated in: the invariant of the state, what taking a fault leaves, the
stack-effect and fault-priority tables, and the static check on programs (10_state.md R18; 60_exceptions.md R87, R88;
70_reset_and_hazards.md R103). -/

namespace Sys2Proof.Machine

open Sys2Proof

/-! ### States -/

/-- A state that takes a step with a meaning: Running, the Program admitted (40_decoder.md R58; 00_scope.md R7). -/
abbrev State.Ready (s : State) : Prop :=
  s.runState = .running ∧ s.progLen ≤ s.params.maxProgLen

/-- A finite stack never holds more entries than its capacity (10_state.md R19). Vacuous for the unbounded baseline. -/
abbrev State.DepthBounded (s : State) : Prop :=
  ∀ d, s.params.stackDepth = some d → s.depth ≤ d

/-- The invariant of the machine. Its clauses about `pc` and the stack do not speak of a Faulted instance, whose `pc`, `S`
and `x` are undefined (60_exceptions.md R88). -/
structure State.Inv (s : State) : Prop where
  /-- The Program space is in canonical form. -/
  progWf : s.prog.wf
  /-- No byte is listed past the end of the Program (20_memory.md R28). -/
  progWithin : s.prog.within s.progLen
  /-- A finite `STACK_DEPTH` is at least 1 (92_eei_decisions.md D5). -/
  paramsLegal : s.params.legal = true
  /-- `fault_kind` is None exactly outside Faulted (10_state.md R21). -/
  faultKindShown : s.faultKind ≠ none ↔ s.runState = .faulted
  /-- `pc` lies in `0 .. PROG_LEN` (10_state.md R13). -/
  pcInside : s.runState ≠ .faulted → s.pc ≤ s.progLen
  /-- The stack is within its capacity (10_state.md R19). -/
  depthBounded : s.runState ≠ .faulted → s.DepthBounded
  /-- StackOverflow is shown only by a model with a finite `STACK_DEPTH` (10_state.md R21). -/
  overflowFinite : s.faultKind = some .stackOverflow → s.params.stackDepth ≠ none

/-- Running, admitted, and the bytes from `pc` on begin with `bytes`. -/
abbrev State.At (s : State) (bytes : List Byte) : Prop :=
  s.Ready ∧ memRead s.port s.pc bytes.length = some bytes

/-! ### Taking a fault -/

/-- `t` is what `raise k` leaves of `s` as far as it is defined: Faulted, the kind, and the run's arguments untouched.
Nothing is said of `pc`, the stack or the registers (60_exceptions.md R88). -/
abbrev FaultTaken (k : FaultKind) (s t : State) : Prop :=
  t.runState = .faulted ∧ t.faultKind = some k ∧ t.prog = s.prog ∧ t.progLen = s.progLen ∧ t.params = s.params

/-- The outcome is the fault `k` taken in `s`. -/
abbrev Raises (o : Host.Outcome State Fault Refusal) (k : FaultKind) (s : State) : Prop :=
  ∃ t, o = .next t ∧ FaultTaken k s t

/-- Where `bytes` stand at `pc`, the step is `i`'s execute stage with `pc` moved past them (40_decoder.md R58, R62). -/
abbrev StepsAs (bytes : List Byte) (i : Instr) : Prop :=
  ∀ s : State, s.At bytes → step s = exec i (setPc (s.pc + bytes.length) s)

/-- The faults of the fetch of an instruction of `len` bytes with opcode `op`: OutOfBounds when the opcode byte, or the
operand after it, lies past the end of the Program (60_exceptions.md R82 a to c). -/
abbrev FetchFaults (op : Byte) (len : Nat) : Prop :=
  ∀ s : State, s.Ready →
    s.progLen ≤ s.pc ∨ (memRead s.port s.pc 1 = some [op] ∧ s.progLen < s.pc + len) →
    Raises (step s) .outOfBounds s

/-- A safe run: no number of steps from `s` reaches Faulted. -/
def Safe (s : State) : Prop :=
  ∀ n t, Sys2Proof.core.run n s = .next t → t.runState ≠ .faulted

/-! ### The tables of the spec, by opcode number -/

/-- The opcode number of an instruction (30_encoding.md R46). -/
def opcodeOf : Instr → Nat
  | .halt => 0
  | .pushConst _ => 1
  | .storeLocal _ => 2
  | .loadLocal _ => 3
  | .jump _ => 4
  | .jumpIfZero _ => 5
  | .mul => 6
  | .rem => 7
  | .lessThan => 8
  | .increment => 9

/-- How many operand bytes follow an opcode (30_encoding.md R47). -/
def operandBytes (op : Nat) : Nat :=
  if op = 1 then 8 else if 2 ≤ op ∧ op ≤ 5 then 1 else 0

/-- Entries popped (10_state.md R18). -/
def popsOf (op : Nat) : Nat :=
  if op = 2 ∨ op = 5 ∨ op = 9 then 1 else if op = 6 ∨ op = 7 ∨ op = 8 then 2 else 0

/-- Entries pushed (10_state.md R18). -/
def pushesOf (op : Nat) : Nat :=
  if op = 1 ∨ op = 3 ∨ op = 6 ∨ op = 7 ∨ op = 8 ∨ op = 9 then 1 else 0

/-- The eight ranks of the fault priority table, each with its condition on the state before the step (60_exceptions.md R87).
A later rank's condition is meaningful only where every earlier one is false. -/
def rankedFaults (s : State) : List (Bool × FaultKind) :=
  let op := (s.port.byteAt s.pc).toNat
  let operand := (s.port.byteAt (s.pc + 1)).toNat
  let top := s.stack.head?
  [ (decide (s.progLen ≤ s.pc), .outOfBounds),
    (decide (10 ≤ op), .invalidOpcode),
    (decide (s.progLen < s.pc + 1 + operandBytes op), .outOfBounds),
    (decide ((op = 2 ∨ op = 3) ∧ 8 ≤ operand), .invalidLocalIndex),
    (decide (s.depth < popsOf op), .stackUnderflow),
    (decide (op = 7 ∧ top = some 0), .divisionByZero),
    (decide ((op = 4 ∨ op = 5 ∧ top = some 0) ∧ s.progLen < operand), .outOfBounds),
    (decide (pushesOf op = 1 ∧ s.params.stackDepth = some (s.depth - popsOf op)), .stackOverflow) ]

/-- The fault a step reports: the first whose condition holds (60_exceptions.md R87). -/
def firstFault (s : State) : Option FaultKind :=
  ((rankedFaults s).find? (·.1)).map (·.2)

/-! ### The static check on programs -/

/-- The Program decoded linearly from `pos`, each instruction with its address, `none` unless every instruction decodes and
the last one ends exactly at `PROG_LEN` (70_reset_and_hazards.md R103). Every instruction has at least one byte, so a fuel
of `PROG_LEN` suffices. -/
def linearDecode (port : ProgramPort) : Nat → Nat → Option (List (Nat × Instr))
  | 0, pos => if pos = port.len then some [] else none
  | fuel + 1, pos =>
    if pos = port.len then some []
    else
      match decode port pos with
      | .error _ => none
      | .ok (i, next) => (linearDecode port fuel next).map ((pos, i) :: ·)

/-- The addresses of the linearly decoded instructions, empty where the Program does not decode linearly. -/
def instrStarts (port : ProgramPort) : List Nat :=
  ((linearDecode port port.len 0).getD []).map (·.1)

/-- Every jump target is the address of a decoded instruction (70_reset_and_hazards.md R103 item e). -/
def targetsOk (starts : List Nat) : Instr → Bool
  | .jump tgt => starts.contains tgt.toNat
  | .jumpIfZero tgt => starts.contains tgt.toNat
  | _ => true

/-- The decidable check of 70_reset_and_hazards.md R103: the Program decodes linearly, every index is below 8 and every target
is the address of a decoded instruction. The machine makes no such check (40_decoder.md R63); it is for claims only. -/
def wellFormedProgram (port : ProgramPort) : Bool :=
  match linearDecode port port.len 0 with
  | none => false
  | some l => l.all fun e => e.2.wellFormed && targetsOk (instrStarts port) e.2

/-- The cursor stands on a linearly decoded instruction or at the end of the Program. -/
abbrev State.AtBoundary (s : State) : Prop :=
  s.pc = s.progLen ∨ s.pc ∈ instrStarts s.port

end Sys2Proof.Machine
end

