-- ==== Sys2Proof/Certificates/Slice0/Obligations.lean ====
section
/-! DEFINITION. Certificates/Slice0/Obligations.lean: the statements for the provers, in the order of OBLIGATIONS.json. Each
docstring names the passage of spec/ that its statement formalises; where a statement rests on a decision the spec marks as
its own, the docstring says so. -/

open Sys2Proof Sys2Proof.Machine

/-! ### Encoding and decoding -/

/-- One byte string for each opcode, and the rejected ones, from the opcode map and the decoder vectors
(30_encoding.md §2, §3; 95_test_vectors.md §2.1). -/
def Obligations.KnownBytesDecodeAsTheMapSays : Prop :=
  decode (portOfBytes [0x00]) 0 = .ok (.halt, 1) ∧
  decode (portOfBytes [0x01, 0x2A, 0, 0, 0, 0, 0, 0, 0]) 0 = .ok (.pushConst 42, 9) ∧
  decode (portOfBytes [0x02, 0x07]) 0 = .ok (.storeLocal 7, 2) ∧
  decode (portOfBytes [0x02, 0x08]) 0 = .ok (.storeLocal 8, 2) ∧
  decode (portOfBytes [0x03, 0xFF]) 0 = .ok (.loadLocal 255, 2) ∧
  decode (portOfBytes [0x04, 0x16]) 0 = .ok (.jump 22, 2) ∧
  decode (portOfBytes [0x05, 0xFF]) 0 = .ok (.jumpIfZero 255, 2) ∧
  decode (portOfBytes [0x06]) 0 = .ok (.mul, 1) ∧
  decode (portOfBytes [0x07]) 0 = .ok (.rem, 1) ∧
  decode (portOfBytes [0x08]) 0 = .ok (.lessThan, 1) ∧
  decode (portOfBytes [0x09]) 0 = .ok (.increment, 1) ∧
  decode (portOfBytes [0x0A]) 0 = .error .invalidOpcode ∧
  decode (portOfBytes [0x10]) 0 = .error .invalidOpcode ∧
  decode (portOfBytes [0xC8]) 0 = .error .invalidOpcode ∧
  decode (portOfBytes []) 0 = .error .outOfBounds ∧
  decode (portOfBytes [0x01, 0, 0, 0, 0, 0, 0, 0]) 0 = .error .outOfBounds ∧
  decode (portOfBytes [0x05]) 0 = .error .outOfBounds

/-- Decoding an instruction's encoding, wherever it stands in a Program, gives the instruction back, with every operand at
every value, an illegal register index included (30_encoding.md §4). -/
def Obligations.DecodeOfEncodeIsTheInstruction : Prop :=
  ∀ (i : Instr) (port : ProgramPort) (p : Nat),
    memRead port p (encode i).length = some (encode i) → decode port p = .ok (i, p + (encode i).length)

/-- The converse: bytes that decode to an instruction are its encoding, so no two byte strings mean one instruction
(30_encoding.md §2, §4). -/
def Obligations.DecodedBytesAreTheEncoding : Prop :=
  ∀ (port : ProgramPort) (p : Nat) (i : Instr) (next : Nat), decode port p = .ok (i, next) →
    next = p + (encode i).length ∧ memRead port p (encode i).length = some (encode i)

/-- A Program made by concatenating encodings decodes linearly to the same instructions, whatever they are
(30_encoding.md §4). -/
def Obligations.AssembledProgramDecodesBack : Prop :=
  ∀ is : List Instr,
    (linearDecode (portOfBytes (encodeProgram is)) (encodeProgram is).length 0).map (fun l => l.map (·.2)) = some is

/-- The opcode alone fixes the length, and the bytes of the instruction alone fix its decoding (30_encoding.md R47). -/
def Obligations.OpcodeFixesTheLength : Prop :=
  ∀ (port : ProgramPort) (p : Nat) (i : Instr) (next : Nat), decode port p = .ok (i, next) →
    (let op := (port.byteAt p).toNat
     opcodeOf i = op ∧
     (((op = 0 ∨ op = 6 ∨ op = 7 ∨ op = 8 ∨ op = 9) ∧ next = p + 1) ∨
      ((op = 2 ∨ op = 3 ∨ op = 4 ∨ op = 5) ∧ next = p + 2) ∨
      (op = 1 ∧ next = p + 9))) ∧
    ∀ port' : ProgramPort, next ≤ port'.len → (∀ a, p ≤ a → a < next → port'.byteAt a = port.byteAt a) →
      decode port' p = .ok (i, next)

/-- `read_u8` (40_decoder.md R55). -/
def Obligations.ReadByteAdvancesByOneOrFaults : Prop :=
  ∀ (port : ProgramPort) (p : Nat),
    (p < port.len → readU8 port p = .ok (port.byteAt p, p + 1)) ∧
    (port.len ≤ p → readU8 port p = .error .outOfBounds)

/-- `read_i64` (40_decoder.md R56). -/
def Obligations.ReadLiteralAdvancesByEightOrFaults : Prop :=
  ∀ (port : ProgramPort) (p : Nat),
    (p + 8 ≤ port.len → readI64 port p =
      .ok (le64 (port.byteAt p) (port.byteAt (p + 1)) (port.byteAt (p + 2)) (port.byteAt (p + 3))
        (port.byteAt (p + 4)) (port.byteAt (p + 5)) (port.byteAt (p + 6)) (port.byteAt (p + 7)), p + 8)) ∧
    (port.len < p + 8 → readI64 port p = .error .outOfBounds)

/-- The literal's byte order: what `read_i64` returns, the byte at the lowest address the least significant, bit 7 of the last
byte the sign; with the three examples of the rule (20_memory.md R32). -/
def Obligations.LiteralIsLittleEndian : Prop :=
  (∀ b0 b1 b2 b3 b4 b5 b6 b7 : Byte,
    (le64 b0 b1 b2 b3 b4 b5 b6 b7).toNat =
      b0.toNat + b1.toNat * 2 ^ 8 + b2.toNat * 2 ^ 16 + b3.toNat * 2 ^ 24 + b4.toNat * 2 ^ 32
        + b5.toNat * 2 ^ 40 + b6.toNat * 2 ^ 48 + b7.toNat * 2 ^ 56 ∧
    ((le64 b0 b1 b2 b3 b4 b5 b6 b7).toInt < 0 ↔ b7.getLsbD 7 = true)) ∧
  (∀ (port : ProgramPort) (p next : Nat) (v : Word), readI64 port p = .ok (v, next) →
    v = le64 (port.byteAt p) (port.byteAt (p + 1)) (port.byteAt (p + 2)) (port.byteAt (p + 3))
      (port.byteAt (p + 4)) (port.byteAt (p + 5)) (port.byteAt (p + 6)) (port.byteAt (p + 7))) ∧
  (le64 0x07 0xE1 0xF5 0x05 0 0 0 0).toInt = 100000007 ∧
  (le64 0xFF 0xFF 0xFF 0xFF 0xFF 0xFF 0xFF 0xFF).toInt = -1 ∧
  le64 0 0 0 0 0 0 0 0x80 = minWord

/-- The bounds rule: an access is in bounds exactly when it ends inside the Program; otherwise, and for a jump past the end,
OutOfBounds, with an empty Program at the first fetch (20_memory.md R31). -/
def Obligations.AccessIsInBoundsOrFaults : Prop :=
  (∀ (port : ProgramPort) (a n : Nat),
    (a + n ≤ port.len → ∃ bs, memRead port a n = some bs ∧ bs.length = n ∧
      ∀ k, k < n → bs[k]? = some (port.byteAt (a + k))) ∧
    (port.len < a + n → memRead port a n = none)) ∧
  (∀ s : State, s.Ready → s.progLen ≤ s.pc → Raises (step s) .outOfBounds s) ∧
  (∀ s : State, s.Ready → s.pc < s.progLen → (s.port.byteAt s.pc).toNat < 10 →
    s.progLen < s.pc + 1 + operandBytes (s.port.byteAt s.pc).toNat → Raises (step s) .outOfBounds s) ∧
  (∀ (tgt : Byte) (s : State), s.progLen < tgt.toNat → Raises (exec (.jump tgt) s) .outOfBounds s) ∧
  (∀ (tgt : Byte) (s : State) (rest : List Word), s.stack = 0 :: rest → s.progLen < tgt.toNat →
    Raises (exec (.jumpIfZero tgt) s) .outOfBounds s)

/-- `set_position`: the end of the Program is accepted, past it is not, and a fetch at the end faults with the same kind
(40_decoder.md §1). That the end is not "past the end" is the spec's decision D8. -/
def Obligations.RepositioningAcceptsTheEnd : Prop :=
  ∀ (p : Nat) (s : State),
    (p ≤ s.progLen → setPosition p s = .ok { s with pc := p }) ∧
    (s.progLen < p → setPosition p s = .error .outOfBounds) ∧
    (s.Ready → Raises (step { s with pc := s.progLen }) .outOfBounds s)

/-- The bytes of a Program the host supplies are the bytes the machine reads (20_memory.md §8; 70_reset_and_hazards.md §2). -/
def Obligations.SuppliedProgramIsReadBack : Prop :=
  ∀ (bytes : List Byte) (s : State),
    memRead (supplyProgram bytes s).port 0 bytes.length = some bytes ∧
    (supplyProgram bytes s).port.len = bytes.length

/-! ### The step -/

/-- A step runs the decoded instruction with `pc` past it, or takes the fault that decoding raises (40_decoder.md §2). -/
def Obligations.StepRunsTheDecodedInstruction : Prop :=
  (∀ (s : State) (i : Instr) (next : Nat), s.Ready → decode s.port s.pc = .ok (i, next) →
    step s = exec i (setPc next s)) ∧
  (∀ (s : State) (e : DecodeError), s.Ready → decode s.port s.pc = .error e →
    step s = .next (raise (decodeFault e) s))

/-- The step is total on Running states with an admitted Program; Halted and Faulted have no step; a Program that is too long
is refused (40_decoder.md §2; 10_state.md §4; 00_scope.md §4, decision D3). -/
def Obligations.StepIsTotalExactlyWhileRunning : Prop :=
  ∀ s : State,
    (s.Ready → ∃ t, step s = .next t) ∧
    (s.runState = .halted → step s = .fault .haltedHasNoStep) ∧
    (s.runState = .faulted → step s = .fault .faultedHasNoStep) ∧
    (s.runState = .running → s.params.maxProgLen < s.progLen → step s = .refused .programTooLong)

/-- The transitions of `run_state` and `fault_kind` are exactly those of the spec: Halted by Halt, Faulted by a fault,
Running otherwise (10_state.md §4; decision D12 for the absence of other states). -/
def Obligations.RunStateMovesOnlyByHaltOrFault : Prop :=
  ∀ s t : State, s.faultKind = none → step s = .next t →
    s.runState = .running ∧
    (t.runState = .halted ↔ ∃ next, decode s.port s.pc = .ok (.halt, next)) ∧
    (t.runState = .faulted ↔ t.faultKind ≠ none)

/-- Where the cursor stands after a step that does not fault (10_state.md §1; 40_decoder.md §2). -/
def Obligations.CursorAdvancesOrJumps : Prop :=
  ∀ s t : State, step s = .next t → t.runState ≠ .faulted →
    ∃ i next, decode s.port s.pc = .ok (i, next) ∧ next = s.pc + i.length ∧ t.pc ≤ s.progLen ∧
      t.pc = match i with
        | .jump tgt => tgt.toNat
        | .jumpIfZero tgt => if s.stack.head? = some 0 then tgt.toNat else next
        | _ => next

/-- No instruction reads `pc` as data: from another cursor the execute stage leaves the same stack, registers and status
(10_state.md §1). Where the two executions fault, their stacks and registers hold no defined value (60_exceptions.md §3, decision
D10); that they agree there is the model's choice, which names the free values by `freeCount` (log entry 3). -/
def Obligations.CursorIsNeverData : Prop :=
  ∀ (i : Instr) (s t : State) (q : Nat), exec i s = .next t →
    ∃ u, exec i { s with pc := q } = .next u ∧ u.stack = t.stack ∧ u.locals = t.locals ∧
      u.runState = t.runState ∧ u.faultKind = t.faultKind

/-- No step and no execute stage changes a byte of the Program, its length or the parameters (20_memory.md §1, §7). -/
def Obligations.ProgramNeverChanges : Prop :=
  (∀ s t : State, step s = .next t →
    (∀ a, t.prog.read a = s.prog.read a) ∧ t.prog = s.prog ∧ t.progLen = s.progLen ∧ t.params = s.params) ∧
  (∀ (i : Instr) (s t : State), exec i s = .next t →
    (∀ a, t.prog.read a = s.prog.read a) ∧ t.prog = s.prog ∧ t.progLen = s.progLen ∧ t.params = s.params)

/-- Bytes outside the instruction being executed are never examined: changing them changes nothing in the step but themselves
(40_decoder.md §2). The second clause is the same for an invalid opcode, after which no operand byte is read. Where the two steps
fault, as they always do in the second clause, `pc`, stack and registers hold no defined value (60_exceptions.md §3, decision
D10); that they agree there is the model's choice, which names the free values by `freeCount` (log entry 3). -/
def Obligations.UnfetchedBytesAreNeverExamined : Prop :=
  (∀ (s : State) (i : Instr) (next : Nat) (m : Memory), s.Ready → decode s.port s.pc = .ok (i, next) →
    (∀ a, s.pc ≤ a → a < next → m.read a = s.prog.read a) →
    ∃ t, step s = .next t ∧ step { s with prog := m } = .next { t with prog := m }) ∧
  (∀ (s : State) (m : Memory), s.Ready → decode s.port s.pc = .error .invalidOpcode →
    m.read s.pc = s.prog.read s.pc →
    ∃ t, step s = .next t ∧ step { s with prog := m } = .next { t with prog := m })

/-! ### The instructions -/

/-- PushConst (41_data_movement.md; the overflow of a finite stack is decision D5). -/
def Obligations.PushConstPushesTheLiteral : Prop :=
  (∀ (imm : Word) (s : State),
    (s.params.stackDepth ≠ some s.depth →
      exec (.pushConst imm) s = .next { s with stack := imm :: s.stack }) ∧
    (s.params.stackDepth = some s.depth → Raises (exec (.pushConst imm) s) .stackOverflow s)) ∧
  (∀ b0 b1 b2 b3 b4 b5 b6 b7 : Byte,
    StepsAs [0x01, b0, b1, b2, b3, b4, b5, b6, b7] (.pushConst (le64 b0 b1 b2 b3 b4 b5 b6 b7))) ∧
  FetchFaults 0x01 9

/-- StoreLocal (41_data_movement.md; that the index is validated before the pop is decision D7). -/
def Obligations.StoreLocalPopsIntoTheRegister : Prop :=
  ∀ idx : Byte,
    (∀ (s : State) (v : Word) (rest : List Word) (h : idx.toNat < nLocals), s.stack = v :: rest →
      exec (.storeLocal idx) s = .next { s with locals := s.locals.set idx.toNat v h, stack := rest }) ∧
    (∀ s : State, nLocals ≤ idx.toNat → Raises (exec (.storeLocal idx) s) .invalidLocalIndex s) ∧
    (∀ s : State, idx.toNat < nLocals → s.stack = [] → Raises (exec (.storeLocal idx) s) .stackUnderflow s) ∧
    StepsAs [0x02, idx] (.storeLocal idx) ∧
    FetchFaults 0x02 2

/-- LoadLocal (41_data_movement.md; the overflow of a finite stack is decision D5). -/
def Obligations.LoadLocalPushesTheRegister : Prop :=
  ∀ idx : Byte,
    (∀ (s : State) (h : idx.toNat < nLocals), s.params.stackDepth ≠ some s.depth →
      exec (.loadLocal idx) s = .next { s with stack := s.locals[idx.toNat] :: s.stack }) ∧
    (∀ s : State, nLocals ≤ idx.toNat → Raises (exec (.loadLocal idx) s) .invalidLocalIndex s) ∧
    (∀ s : State, idx.toNat < nLocals → s.params.stackDepth = some s.depth →
      Raises (exec (.loadLocal idx) s) .stackOverflow s) ∧
    StepsAs [0x03, idx] (.loadLocal idx) ∧
    FetchFaults 0x03 2

/-- Halt (42_control.md R67). -/
def Obligations.HaltStopsAndKeepsTheSnapshot : Prop :=
  (∀ s : State, exec .halt s = .next { s with runState := .halted }) ∧
  (∀ s t : State, exec .halt s = .next t → step t = .fault .haltedHasNoStep) ∧
  StepsAs [0x00] .halt ∧
  FetchFaults 0x00 1

/-- Jump (42_control.md; that a target equal to `PROG_LEN` is accepted is decision D8). -/
def Obligations.JumpSetsTheCursor : Prop :=
  ∀ tgt : Byte,
    (∀ s : State, tgt.toNat ≤ s.progLen → exec (.jump tgt) s = .next { s with pc := tgt.toNat }) ∧
    (∀ s : State, s.progLen < tgt.toNat → Raises (exec (.jump tgt) s) .outOfBounds s) ∧
    StepsAs [0x04, tgt] (.jump tgt) ∧
    FetchFaults 0x04 2

/-- JumpIfZero (42_control.md; that a jump not taken never examines its target is decision D19, the end of the Program as a
target decision D8). -/
def Obligations.JumpIfZeroPopsAndTests : Prop :=
  ∀ tgt : Byte,
    (∀ (s : State) (rest : List Word), s.stack = 0 :: rest → tgt.toNat ≤ s.progLen →
      exec (.jumpIfZero tgt) s = .next { s with pc := tgt.toNat, stack := rest }) ∧
    (∀ (s : State) (v : Word) (rest : List Word), s.stack = v :: rest → v ≠ 0 →
      exec (.jumpIfZero tgt) s = .next { s with stack := rest }) ∧
    (∀ s : State, s.stack = [] → Raises (exec (.jumpIfZero tgt) s) .stackUnderflow s) ∧
    (∀ (s : State) (rest : List Word), s.stack = 0 :: rest → s.progLen < tgt.toNat →
      Raises (exec (.jumpIfZero tgt) s) .outOfBounds s) ∧
    StepsAs [0x05, tgt] (.jumpIfZero tgt) ∧
    FetchFaults 0x05 2

/-- Mul (43_arithmetic.md R74). -/
def Obligations.MulPushesTheWrappedProduct : Prop :=
  (∀ (s : State) (a b : Word) (rest : List Word), s.DepthBounded → s.stack = b :: a :: rest →
    exec .mul s = .next { s with stack := wrap64 (a.toInt * b.toInt) :: rest }) ∧
  (∀ s : State, s.depth < 2 → Raises (exec .mul s) .stackUnderflow s) ∧
  StepsAs [0x06] .mul ∧
  FetchFaults 0x06 1

/-- Rem (43_arithmetic.md; that `MIN` by `-1` is 0 and no fault is decision D9). -/
def Obligations.RemPushesTheTruncatedRemainder : Prop :=
  (∀ (s : State) (a b : Word) (rest : List Word), s.DepthBounded → s.stack = b :: a :: rest → b ≠ 0 →
    exec .rem s = .next { s with stack := wrap64 (a.toInt.tmod b.toInt) :: rest }) ∧
  (∀ (s : State) (a : Word) (rest : List Word), s.stack = 0 :: a :: rest →
    Raises (exec .rem s) .divisionByZero s) ∧
  (∀ s : State, s.depth < 2 → Raises (exec .rem s) .stackUnderflow s) ∧
  StepsAs [0x07] .rem ∧
  FetchFaults 0x07 1

/-- LessThan (43_arithmetic.md R76). -/
def Obligations.LessThanPushesTheSignedComparison : Prop :=
  (∀ (s : State) (a b : Word) (rest : List Word), s.DepthBounded → s.stack = b :: a :: rest →
    exec .lessThan s = .next { s with stack := (if a.toInt < b.toInt then 1 else 0) :: rest }) ∧
  (∀ s : State, s.depth < 2 → Raises (exec .lessThan s) .stackUnderflow s) ∧
  StepsAs [0x08] .lessThan ∧
  FetchFaults 0x08 1

/-- Increment (43_arithmetic.md R77). -/
def Obligations.IncrementWrapsTheTop : Prop :=
  (∀ (s : State) (a : Word) (rest : List Word), s.DepthBounded → s.stack = a :: rest →
    exec .increment s = .next { s with stack := wrap64 (a.toInt + 1) :: rest }) ∧
  (∀ s : State, s.stack = [] → Raises (exec .increment s) .stackUnderflow s) ∧
  StepsAs [0x09] .increment ∧
  FetchFaults 0x09 1

/-! ### Frames -/

/-- The frame of Mul, Rem, LessThan and Increment: where they do not fault they change the stack only, and of it no entry
below the operands; they never change memory (43_arithmetic.md §2; 10_state.md §2, §3). -/
def Obligations.ArithmeticFrame : Prop :=
  ∀ (i : Instr) (s t : State), i = .mul ∨ i = .rem ∨ i = .lessThan ∨ i = .increment → exec i s = .next t →
    (∀ a, t.prog.read a = s.prog.read a) ∧ t.progLen = s.progLen ∧ t.params = s.params ∧
    (t.runState ≠ .faulted →
      t.pc = s.pc ∧ t.locals = s.locals ∧ t.runState = s.runState ∧ t.faultKind = s.faultKind ∧
      t.freeCount = s.freeCount ∧ t.stack.tail = s.stack.drop (popsOf (opcodeOf i)))

/-- The frame of PushConst, StoreLocal and LoadLocal: where they do not fault, the cursor and the status stay; the literal and
the load keep every register and every older entry; the store keeps every other register and every entry below
(41_data_movement.md). -/
def Obligations.DataMovementFrame : Prop :=
  ∀ (i : Instr) (s t : State),
    (∃ imm, i = .pushConst imm) ∨ (∃ idx, i = .storeLocal idx) ∨ (∃ idx, i = .loadLocal idx) → exec i s = .next t →
    (∀ a, t.prog.read a = s.prog.read a) ∧ t.progLen = s.progLen ∧ t.params = s.params ∧
    (t.runState ≠ .faulted →
      t.pc = s.pc ∧ t.runState = s.runState ∧ t.faultKind = s.faultKind ∧ t.freeCount = s.freeCount ∧
      (∀ j : Fin nLocals, (∀ idx, i = .storeLocal idx → idx.toNat ≠ j) → getLocal j t = getLocal j s) ∧
      t.stack.drop (pushesOf (opcodeOf i)) = s.stack.drop (popsOf (opcodeOf i)))

/-- The frame of Halt, Jump and JumpIfZero: where they do not fault, no register changes, the stack loses at most the tested
entry, and the status changes only by Halt (42_control.md). -/
def Obligations.ControlFrame : Prop :=
  ∀ (i : Instr) (s t : State), i = .halt ∨ (∃ tgt, i = .jump tgt) ∨ (∃ tgt, i = .jumpIfZero tgt) → exec i s = .next t →
    (∀ a, t.prog.read a = s.prog.read a) ∧ t.progLen = s.progLen ∧ t.params = s.params ∧
    (t.runState ≠ .faulted →
      t.locals = s.locals ∧ t.faultKind = s.faultKind ∧ t.freeCount = s.freeCount ∧
      t.stack = s.stack.drop (popsOf (opcodeOf i)) ∧
      (i = .halt → t.pc = s.pc) ∧ (i ≠ .halt → t.runState = s.runState))

/-- Only StoreLocal writes the register file and only LoadLocal reads it, each at the register its operand byte names; a write
replaces the whole register and no other; an unwritten register reads as zero (10_state.md §2). Where the two executions of the
second clause fault, their stacks and `pc` hold no defined value (60_exceptions.md §3, decision D10); that they agree there is the
model's choice, which names the free values by `freeCount` (log entry 3). -/
def Obligations.OnlyStoreAndLoadReachTheRegisters : Prop :=
  (∀ (i : Instr) (s t : State), (∀ idx, i ≠ .storeLocal idx) → exec i s = .next t → t.runState ≠ .faulted →
    t.locals = s.locals) ∧
  (∀ (i : Instr) (s t : State) (l : Locals), (∀ idx, i ≠ .loadLocal idx) → exec i s = .next t →
    ∃ u, exec i { s with locals := l } = .next u ∧ u.stack = t.stack ∧ u.pc = t.pc ∧
      u.runState = t.runState ∧ u.faultKind = t.faultKind) ∧
  (∀ (idx : Byte) (s t : State), exec (.loadLocal idx) s = .next t → t.runState ≠ .faulted →
    ∃ h : idx.toNat < nLocals, t.stack = getLocal ⟨idx.toNat, h⟩ s :: s.stack) ∧
  (∀ (idx : Byte) (s t : State), exec (.storeLocal idx) s = .next t → t.runState ≠ .faulted →
    ∃ v rest, s.stack = v :: rest ∧
      ∀ j : Fin nLocals, getLocal j t = if (j : Nat) = idx.toNat then v else getLocal j s) ∧
  (∀ j : Fin nLocals, getLocal j State.reset = 0)

/-- What each instruction does to the stack: the entries popped and pushed, nothing below them touched, and StackUnderflow
where there are too few (10_state.md §3). An illegal index is reported first, which is decision D7. -/
def Obligations.StackEffectIsTheTable : Prop :=
  ∀ (i : Instr) (s : State),
    (∀ t, exec i s = .next t → t.runState ≠ .faulted →
      popsOf (opcodeOf i) ≤ s.depth ∧
      t.depth + popsOf (opcodeOf i) = s.depth + pushesOf (opcodeOf i) ∧
      t.stack.drop (pushesOf (opcodeOf i)) = s.stack.drop (popsOf (opcodeOf i))) ∧
    (s.depth < popsOf (opcodeOf i) → i.wellFormed = true → Raises (exec i s) .stackUnderflow s)

/-- What a StoreLocal writes, the LoadLocal of the same register that follows at once pushes again: no hazard
(70_reset_and_hazards.md §4). -/
def Obligations.StoreThenLoadGivesTheValueBack : Prop :=
  ∀ (idx : Byte) (s t u : State), s.runState ≠ .faulted → exec (.storeLocal idx) s = .next t →
    t.runState ≠ .faulted → exec (.loadLocal idx) t = .next u → u.runState ≠ .faulted → u.stack = s.stack

/-! ### Arithmetic laws -/

/-- `wrap64` is the one word congruent to the exact result, and for Mul and Increment signed and unsigned reading give the
same low 64 bits (43_arithmetic.md §1; 00_scope.md §6, the notation being decision D17). -/
def Obligations.WrapIsTheLowSixtyFourBits : Prop :=
  (∀ n : Int, (wrap64 n).toInt ≡ n [ZMOD 2 ^ 64] ∧
    ∀ w : Word, w.toInt ≡ n [ZMOD 2 ^ 64] → w = wrap64 n) ∧
  (∀ a b : Word, wrap64 (a.toInt * b.toInt) = wrap64 ((a.toNat : Int) * (b.toNat : Int))) ∧
  (∀ a : Word, wrap64 (a.toInt + 1) = wrap64 ((a.toNat : Int) + 1))

/-- The truncated remainder: dividend minus divisor times the quotient rounded toward zero; its magnitude is the remainder of
the magnitudes, below the divisor's; a non-zero result has the dividend's sign; the four sign combinations (43_arithmetic.md §1).
It includes the pair `MIN` by `-1`, whose result 0 is decision D9, not a statement of the source (log entry 5). -/
def Obligations.RemainderIsTruncated : Prop :=
  (∀ a b : Word, b ≠ 0 →
    (trem a b).toInt = a.toInt - b.toInt * a.toInt.tdiv b.toInt ∧
    (trem a b).toInt.natAbs = a.toInt.natAbs % b.toInt.natAbs ∧
    (trem a b).toInt.natAbs < b.toInt.natAbs ∧
    ((trem a b).toInt ≠ 0 → ((trem a b).toInt < 0 ↔ a.toInt < 0)) ∧
    (a = 0 → trem a b = 0)) ∧
  trem 7 3 = 1 ∧ trem (-7) 3 = -1 ∧ trem 7 (-3) = 1 ∧ trem (-7) (-3) = -1

/-- Rem of `MIN` by `-1` pushes 0 and does not fault: decision D9, not a statement of the source (43_arithmetic.md §1;
93_implementation_defined.md U4; log entry 5). -/
def Obligations.RemOfMinByMinusOneIsZero : Prop :=
  ∀ (s : State) (rest : List Word), s.DepthBounded → s.stack = (-1) :: minWord :: rest →
    exec .rem s = .next { s with stack := 0 :: rest }

/-! ### Faults -/

/-- Taking a fault: Faulted with the kind, the run's arguments untouched, and no further step (60_exceptions.md §3; decision
D10: nothing is said of `pc`, the stack or the registers). -/
def Obligations.RaiseRecordsTheKindAndStops : Prop :=
  ∀ (k : FaultKind) (s : State),
    FaultTaken k s (raise k s) ∧ step (raise k s) = .fault .faultedHasNoStep

/-- InvalidOpcode is raised exactly when the byte fetched as an opcode is 10 to 255 (60_exceptions.md R81). -/
def Obligations.InvalidOpcodeCause : Prop :=
  ∀ s : State, s.Ready → s.faultKind = none →
    (Raises (step s) .invalidOpcode s ↔ s.pc < s.progLen ∧ 10 ≤ (s.port.byteAt s.pc).toNat)

/-- DivisionByZero is raised by Rem only, with a zero divisor on top of a dividend, whatever the dividend
(60_exceptions.md R83). -/
def Obligations.DivisionByZeroCause : Prop :=
  ∀ (i : Instr) (s : State), s.faultKind = none →
    (Raises (exec i s) .divisionByZero s ↔ i = .rem ∧ ∃ a rest, s.stack = 0 :: a :: rest)

/-- StackUnderflow is raised exactly by an instruction that pops more entries than there are (60_exceptions.md §1); for
StoreLocal only with a legal index, which is decision D7. -/
def Obligations.StackUnderflowCause : Prop :=
  ∀ (i : Instr) (s : State), s.faultKind = none →
    (Raises (exec i s) .stackUnderflow s ↔
      (∃ idx : Byte, i = .storeLocal idx ∧ idx.toNat < nLocals ∧ s.depth = 0) ∨
      ((i = .increment ∨ ∃ tgt, i = .jumpIfZero tgt) ∧ s.depth = 0) ∨
      ((i = .mul ∨ i = .rem ∨ i = .lessThan) ∧ (s.depth = 0 ∨ s.depth = 1)))

/-- InvalidLocalIndex is raised exactly by StoreLocal and LoadLocal with an index of 8 to 255, whatever the stack holds
(60_exceptions.md §1; before the stack is touched by decision D7). -/
def Obligations.InvalidLocalIndexCause : Prop :=
  ∀ (i : Instr) (s : State), s.faultKind = none →
    (Raises (exec i s) .invalidLocalIndex s ↔
      ∃ idx : Byte, (i = .storeLocal idx ∨ i = .loadLocal idx) ∧ 8 ≤ idx.toNat)

/-- OutOfBounds of a whole step comes from exactly four places: opcode fetch, one-byte operand fetch, literal fetch, and a
taken jump past the end (60_exceptions.md §1). That the end of the Program is no target past it is decision D8, and that a jump not
taken never examines its target is decision D19 (log entry 13). -/
def Obligations.OutOfBoundsCause : Prop :=
  ∀ s : State, s.Ready → s.faultKind = none →
    (Raises (step s) .outOfBounds s ↔
      s.progLen ≤ s.pc ∨
      (∃ op : Byte, memRead s.port s.pc 1 = some [op] ∧ 2 ≤ op.toNat ∧ op.toNat ≤ 5 ∧ s.progLen < s.pc + 2) ∨
      (memRead s.port s.pc 1 = some [0x01] ∧ s.progLen < s.pc + 9) ∨
      (∃ tgt : Byte, memRead s.port s.pc 2 = some [0x04, tgt] ∧ s.progLen < tgt.toNat) ∨
      (∃ (tgt : Byte) (rest : List Word), memRead s.port s.pc 2 = some [0x05, tgt] ∧ s.stack = 0 :: rest ∧
        s.progLen < tgt.toNat))

/-- StackOverflow exists only with a finite capacity, and then only for PushConst and a LoadLocal with a legal index on a full
stack (60_exceptions.md §1; decision D5). -/
def Obligations.StackOverflowCause : Prop :=
  ∀ (i : Instr) (s : State), s.faultKind = none → s.DepthBounded →
    (Raises (exec i s) .stackOverflow s ↔
      s.params.stackDepth = some s.depth ∧
        ((∃ imm, i = .pushConst imm) ∨ ∃ idx : Byte, i = .loadLocal idx ∧ idx.toNat < nLocals))

/-- With the unbounded stack of the baseline no step raises anything but the five faults of the source
(60_exceptions.md §1, §2). -/
def Obligations.BaselineRaisesOnlyTheFiveFaults : Prop :=
  ∀ s t : State, s.params.stackDepth = none → s.faultKind = none → step s = .next t →
    t.faultKind = none ∨ t.faultKind = some .stackUnderflow ∨ t.faultKind = some .invalidLocalIndex ∨
      t.faultKind = some .invalidOpcode ∨ t.faultKind = some .outOfBounds ∨ t.faultKind = some .divisionByZero

/-- The priority table decides every step: the step takes the first fault whose condition holds, and where none holds it
completes without a fault (60_exceptions.md §2). It rests on decisions of the spec: the order of ranks 4 and 5 on D7 (log entry
12), the boundary of rank 7 on D8 and its being tested for a taken jump only on D19 (log entry 13), rank 8 on D5 (log entry 2),
and that Rem of `MIN` by `-1` completes on D9 (log entry 5). -/
def Obligations.EveryStepFollowsThePriorityTable : Prop :=
  ∀ s : State, s.Ready →
    match firstFault s with
    | some k => Raises (step s) k s
    | none => ∃ t, step s = .next t ∧ t.runState ≠ .faulted ∧ t.faultKind = s.faultKind

/-! ### Invariants -/

/-- Every step keeps the invariant: the Program in canonical form, the cursor within `0 .. PROG_LEN`, the stack within its
capacity, `fault_kind` shown exactly in Faulted (10_state.md §1, §3, §4; 20_memory.md §1). -/
def Obligations.StepKeepsTheInvariant : Prop :=
  ∀ s t : State, s.Inv → step s = .next t → t.Inv

/-- The invariant holds right after reset. -/
def Obligations.ResetStateHasTheInvariant : Prop :=
  State.reset.Inv

/-- The invariant holds at the start of every run: any bytes supplied, then reset, whatever state the instance was in
(70_reset_and_hazards.md §1, §2). -/
def Obligations.EveryLaunchHasTheInvariant : Prop :=
  ∀ (bytes : List Byte) (s : State), s.params.legal = true → (resetInput (supplyProgram bytes s)).Inv

/-- In a Program that passes the static check of R103 an instruction boundary leads to an instruction boundary, no step raises
InvalidOpcode or InvalidLocalIndex, and OutOfBounds comes only from running off the end (70_reset_and_hazards.md §3). -/
def Obligations.CheckedProgramStaysOnBoundaries : Prop :=
  ∀ s t : State, wellFormedProgram s.port = true → s.faultKind = none → s.AtBoundary → step s = .next t →
    (t.runState ≠ .faulted → t.AtBoundary) ∧
    t.faultKind ≠ some .invalidOpcode ∧ t.faultKind ≠ some .invalidLocalIndex ∧
    (t.faultKind = some .outOfBounds → s.pc = s.progLen)

/-- A run from the reset state of a Program that passes the static check never shows InvalidOpcode or InvalidLocalIndex, after
any number of steps (70_reset_and_hazards.md §3). -/
def Obligations.CheckedProgramNeverMisdecodes : Prop :=
  ∀ (n : Nat) (s t : State), wellFormedProgram s.port = true → s = resetInput s → Sys2Proof.core.run n s = .next t →
    t.faultKind ≠ some .invalidOpcode ∧ t.faultKind ≠ some .invalidLocalIndex

/-! ### Reset and runs -/

/-- Reset from any state leaves the reset values and nothing of what went before; the run's arguments stay
(10_state.md §6; 70_reset_and_hazards.md §1; `pc = 0`, Running and None by the decisions D4, D12, D6). -/
def Obligations.ResetLeavesTheResetValues : Prop :=
  (State.reset.pc = 0 ∧ (∀ j, getLocal j State.reset = 0) ∧ State.reset.stack = [] ∧
    State.reset.runState = .running ∧ State.reset.faultKind = none) ∧
  ∀ s : State, (resetInput s).pc = 0 ∧ (∀ j, getLocal j (resetInput s) = 0) ∧ (resetInput s).stack = [] ∧
    (resetInput s).runState = .running ∧ (resetInput s).faultKind = none ∧
    (resetInput s).prog = s.prog ∧ (resetInput s).progLen = s.progLen ∧ (resetInput s).params = s.params

/-- What the host reads: nothing while Running, the snapshot (stack bottom first) in Halted, the kind alone in Faulted
(70_reset_and_hazards.md §2; the listing order is decision D17). -/
def Obligations.HostReadsSnapshotOrKind : Prop :=
  ∀ s : State,
    (s.runState = .running → outcomeOf s = none ∧ snapshot s = none) ∧
    (s.runState = .halted → outcomeOf s = some (.halted { stack := s.stack.reverse, locals := s.locals })) ∧
    (s.runState = .faulted → outcomeOf s = some (.faulted s.faultKind) ∧ snapshot s = none)

/-- A run from any state but the reset state is refused (70_reset_and_hazards.md §1; decision D12). -/
def Obligations.RunFromAnotherStateIsRefused : Prop :=
  ∀ (fuel : Nat) (s : State), s ≠ resetInput s → run fuel s = .refused .notResetState

/-- Fuel is outside the semantics: once a run has ended, more fuel gives the same result (40_decoder.md §2;
70_reset_and_hazards.md §3, §4). -/
def Obligations.MoreFuelGivesTheSameResult : Prop :=
  ∀ (n k : Nat) (s : State) (r : RunResult), run n s = .ended r → run (n + k) s = .ended r

/-- A result is delivered exactly when the machine's own steps reach Halted or Faulted from the reset state
(70_reset_and_hazards.md §2; 40_decoder.md §2). -/
def Obligations.RunDeliversExactlyWhatTheStepsReach : Prop :=
  ∀ (n : Nat) (s : State) (r : RunResult),
    run n s = .ended r ↔
      s = resetInput s ∧ ∃ k t, k ≤ n ∧ Sys2Proof.core.run k s = .next t ∧ outcomeOf t = some r

/-- The status wires: the codes of the spec, the unused ones never produced (10_state.md §4; 60_exceptions.md §1; the numbers are
the decisions D6 and D14). -/
def Obligations.StatusCodesAreDistinct : Prop :=
  (∀ r r' : RunState, runStateCode r = runStateCode r' → r = r') ∧ (∀ r, runStateCode r ≠ 3) ∧
  (∀ k k' : Option FaultKind, faultCode k = faultCode k' → k = k') ∧ (∀ k, faultCode k ≠ 7)
end

