-- ==== Sys2Proof/Laws/Memory.lean ====
section
/-! SUPPORT. Laws/Memory.lean: reading after writing, and that every operation on the Program's bytes keeps the canonical form. -/

namespace Sys2Proof.Machine

open Sys2Proof

theorem Memory.read_eq_unlisted {m : Memory} {k : Nat} (h : ∀ c ∈ m, c.1 ≠ k) : m.read k = Memory.unlisted := by
  induction m with
  | nil => rfl
  | cons c m ih =>
    obtain ⟨a, b⟩ := c
    have : a ≠ k := h (a, b) (by simp)
    simpa [Memory.read, this] using ih fun c hc => h c (by simp [hc])

theorem Memory.wf_tail {c : Host.Cell} {m : Memory} (h : Memory.wf (c :: m)) : m.wf :=
  ⟨(List.pairwise_cons.1 h.1).2, fun d hd => h.2 d (by simp [hd])⟩

theorem Memory.read_cons_same (k : Nat) (v : Byte) {m : Memory} (h : ∀ c ∈ m, k < c.1) :
    (Memory.cons k v m).read k = v := by
  unfold Memory.cons
  split
  next hv => rw [hv]; exact Memory.read_eq_unlisted fun c hc => Nat.ne_of_gt (h c hc)
  next => simp [Memory.read]

theorem Memory.read_cons_other {k j : Nat} (hj : j ≠ k) (v : Byte) (m : Memory) :
    (Memory.cons k v m).read j = m.read j := by
  unfold Memory.cons
  split
  · rfl
  · simp [Memory.read, hj.symm]

/-- A byte written is read back. -/
theorem Memory.read_write_same {m : Memory} (h : m.wf) (k : Nat) (v : Byte) : (m.write k v).read k = v := by
  induction m with
  | nil => exact Memory.read_cons_same k v (by simp)
  | cons c m ih =>
    obtain ⟨a, b⟩ := c
    have hlt := (List.pairwise_cons.1 h.1).1
    simp only [Memory.write]
    split
    next hk =>
      refine Memory.read_cons_same k v fun c hc => ?_
      rcases List.mem_cons.1 hc with rfl | hc
      · exact hk
      · exact Nat.lt_trans hk (hlt c hc)
    next =>
      split
      next hk => exact Memory.read_cons_same k v fun c hc => hk ▸ hlt c hc
      next hne => simpa [Memory.read, Ne.symm hne] using ih (Memory.wf_tail h)

/-- A write leaves every other address alone. -/
theorem Memory.read_write_other {k j : Nat} (hj : j ≠ k) (m : Memory) (v : Byte) :
    (m.write k v).read j = m.read j := by
  induction m with
  | nil => exact Memory.read_cons_other hj v []
  | cons c m ih =>
    obtain ⟨a, b⟩ := c
    simp only [Memory.write]
    split
    · exact Memory.read_cons_other hj v _
    · split
      next hk =>
        rw [Memory.read_cons_other hj]
        simp [Memory.read, ← hk, hj.symm]
      next => simp [Memory.read, ih]

/-- Every address of a written list was listed before or is the one written. -/
theorem Memory.mem_write {m : Memory} {k : Nat} {v : Byte} {c : Host.Cell} (h : c ∈ m.write k v) :
    c ∈ m ∨ c = (k, v) := by
  induction m with
  | nil => simp only [Memory.write, Memory.cons] at h; split at h <;> simp_all
  | cons d m ih =>
    obtain ⟨a, b⟩ := d
    simp only [Memory.write, Memory.cons] at h
    split at h
    · split at h <;> simp only [List.mem_cons] at h ⊢ <;> tauto
    · split at h
      · split at h <;> simp only [List.mem_cons] at h ⊢ <;> tauto
      · simp only [List.mem_cons] at h ⊢
        rcases h with h | h
        · tauto
        · rcases ih h with h | h <;> tauto

theorem Memory.cons_wf {m : Memory} (h : m.wf) {k : Nat} (hk : ∀ c ∈ m, k < c.1) (v : Byte) :
    (Memory.cons k v m).wf := by
  unfold Memory.cons
  split
  · exact h
  next hv =>
    refine ⟨List.pairwise_cons.2 ⟨hk, h.1⟩, fun c hc => ?_⟩
    rcases List.mem_cons.1 hc with rfl | hc
    · exact hv
    · exact h.2 c hc

/-- A write keeps the canonical form. -/
theorem Memory.write_wf {m : Memory} (h : m.wf) (k : Nat) (v : Byte) : (m.write k v).wf := by
  induction m with
  | nil => exact Memory.cons_wf h (by simp) v
  | cons c m ih =>
    obtain ⟨a, b⟩ := c
    have hlt := (List.pairwise_cons.1 h.1).1
    have htail := Memory.wf_tail h
    simp only [Memory.write]
    split
    next hk =>
      refine Memory.cons_wf h (fun c hc => ?_) v
      rcases List.mem_cons.1 hc with rfl | hc
      · exact hk
      · exact Nat.lt_trans hk (hlt c hc)
    next =>
      split
      next hk => exact Memory.cons_wf htail (fun c hc => hk ▸ hlt c hc) v
      next hnlt hne =>
        refine ⟨List.pairwise_cons.2 ⟨fun c hc => ?_, (ih htail).1⟩, fun c hc => ?_⟩
        · rcases Memory.mem_write hc with hc | rfl
          · exact hlt c hc
          · exact Nat.lt_of_le_of_ne (Nat.le_of_not_lt hnlt) (Ne.symm hne)
        · rcases List.mem_cons.1 hc with rfl | hc
          · exact h.2 _ (by simp)
          · exact (ih htail).2 c hc

theorem Memory.write_within {m : Memory} {len : Nat} (h : m.within len) {k : Nat} (hk : k < len) (v : Byte) :
    (m.write k v).within len := fun c hc => by
  rcases Memory.mem_write hc with hc | rfl
  · exact h c hc
  · exact hk

/-- Loading bytes keeps the canonical form. -/
theorem Memory.load_wf {m : Memory} (h : m.wf) (start : Nat) (bs : List Byte) : (m.load start bs).wf := by
  induction bs generalizing m start with
  | nil => exact h
  | cons b bs ih => exact ih (Memory.write_wf h start b) (start + 1)

theorem Memory.load_within {m : Memory} {len start : Nat} {bs : List Byte} (h : m.within len)
    (hfit : start + bs.length ≤ len) : (m.load start bs).within len := by
  induction bs generalizing m start with
  | nil => exact h
  | cons b bs ih =>
    simp only [List.length_cons] at hfit
    exact ih (Memory.write_within h (by omega) b) (by omega)

/-- Two canonical lists that read alike everywhere are the same data. -/
theorem Memory.eq_of_read_eq {m n : Memory} (hm : m.wf) (hn : n.wf) (h : ∀ a, m.read a = n.read a) : m = n := by
  induction m generalizing n with
  | nil =>
    cases n with
    | nil => rfl
    | cons c n =>
      have := h c.1
      simp only [Memory.read] at this
      exact absurd this.symm (hn.2 c (by simp))
  | cons c m ih =>
    obtain ⟨a, b⟩ := c
    have hma := (List.pairwise_cons.1 hm.1).1
    cases n with
    | nil =>
      have := h a
      simp only [Memory.read] at this
      exact absurd (by simpa using this) (hm.2 (a, b) (by simp))
    | cons d n =>
      obtain ⟨a', b'⟩ := d
      have hna := (List.pairwise_cons.1 hn.1).1
      have hne : ∀ {x y : Nat} {p q : Byte} {m n : Memory}, Memory.wf ((x, p) :: m) → Memory.wf ((y, q) :: n) →
          Memory.read ((x, p) :: m) x = Memory.read ((y, q) :: n) x → y ≤ x := by
        intro x y p q m n h1 h2 he
        refine Nat.le_of_not_lt fun hlt => h1.2 (x, p) (by simp) ?_
        have : Memory.read ((y, q) :: n) x = Memory.unlisted := Memory.read_eq_unlisted fun c hc => by
          rcases List.mem_cons.1 hc with rfl | hc
          · exact Nat.ne_of_gt hlt
          · exact Nat.ne_of_gt (Nat.lt_trans hlt ((List.pairwise_cons.1 h2.1).1 c hc))
        rw [this] at he
        simpa [Memory.read] using he
      have haa : a = a' := Nat.le_antisymm (hne hn hm (h a').symm) (hne hm hn (h a))
      subst haa
      have hbb : b = b' := by simpa [Memory.read] using h a
      subst hbb
      rw [ih (Memory.wf_tail hm) (Memory.wf_tail hn) fun x => ?_]
      by_cases hx : a = x
      · subst hx
        rw [Memory.read_eq_unlisted fun c hc => Nat.ne_of_gt (hma c hc),
          Memory.read_eq_unlisted fun c hc => Nat.ne_of_gt (hna c hc)]
      · simpa [Memory.read, hx] using h x

/-- The memory of the reset state is in canonical form. -/
theorem Memory.reset_wf : State.reset.prog.wf := by simp [State.reset, Memory.wf]

end Sys2Proof.Machine
end

