-- ==== Sys2Proof/Laws/State.lean ====
section
/-! SUPPORT. Laws/State.lean: what each named update of the state does to each field, so that no later proof unfolds one. -/

namespace Sys2Proof.Machine

open Sys2Proof

@[simp] theorem setPc_pc (p : Nat) (s : State) : (setPc p s).pc = p := rfl
@[simp] theorem setPc_locals (p : Nat) (s : State) : (setPc p s).locals = s.locals := rfl
@[simp] theorem setPc_stack (p : Nat) (s : State) : (setPc p s).stack = s.stack := rfl
@[simp] theorem setPc_runState (p : Nat) (s : State) : (setPc p s).runState = s.runState := rfl
@[simp] theorem setPc_faultKind (p : Nat) (s : State) : (setPc p s).faultKind = s.faultKind := rfl
@[simp] theorem setPc_prog (p : Nat) (s : State) : (setPc p s).prog = s.prog := rfl
@[simp] theorem setPc_progLen (p : Nat) (s : State) : (setPc p s).progLen = s.progLen := rfl
@[simp] theorem setPc_params (p : Nat) (s : State) : (setPc p s).params = s.params := rfl
@[simp] theorem setPc_freeCount (p : Nat) (s : State) : (setPc p s).freeCount = s.freeCount := rfl
@[simp] theorem setPc_depth (p : Nat) (s : State) : (setPc p s).depth = s.depth := rfl
@[simp] theorem setPc_port (p : Nat) (s : State) : (setPc p s).port = s.port := rfl

@[simp] theorem setStack_pc (l : List Word) (s : State) : (setStack l s).pc = s.pc := rfl
@[simp] theorem setStack_locals (l : List Word) (s : State) : (setStack l s).locals = s.locals := rfl
@[simp] theorem setStack_stack (l : List Word) (s : State) : (setStack l s).stack = l := rfl
@[simp] theorem setStack_runState (l : List Word) (s : State) : (setStack l s).runState = s.runState := rfl
@[simp] theorem setStack_faultKind (l : List Word) (s : State) : (setStack l s).faultKind = s.faultKind := rfl
@[simp] theorem setStack_prog (l : List Word) (s : State) : (setStack l s).prog = s.prog := rfl
@[simp] theorem setStack_progLen (l : List Word) (s : State) : (setStack l s).progLen = s.progLen := rfl
@[simp] theorem setStack_params (l : List Word) (s : State) : (setStack l s).params = s.params := rfl
@[simp] theorem setStack_freeCount (l : List Word) (s : State) : (setStack l s).freeCount = s.freeCount := rfl
@[simp] theorem setStack_depth (l : List Word) (s : State) : (setStack l s).depth = l.length := rfl
@[simp] theorem setStack_port (l : List Word) (s : State) : (setStack l s).port = s.port := rfl

@[simp] theorem setLocals_pc (x : Locals) (s : State) : (setLocals x s).pc = s.pc := rfl
@[simp] theorem setLocals_locals (x : Locals) (s : State) : (setLocals x s).locals = x := rfl
@[simp] theorem setLocals_stack (x : Locals) (s : State) : (setLocals x s).stack = s.stack := rfl
@[simp] theorem setLocals_runState (x : Locals) (s : State) : (setLocals x s).runState = s.runState := rfl
@[simp] theorem setLocals_faultKind (x : Locals) (s : State) : (setLocals x s).faultKind = s.faultKind := rfl
@[simp] theorem setLocals_prog (x : Locals) (s : State) : (setLocals x s).prog = s.prog := rfl
@[simp] theorem setLocals_progLen (x : Locals) (s : State) : (setLocals x s).progLen = s.progLen := rfl
@[simp] theorem setLocals_params (x : Locals) (s : State) : (setLocals x s).params = s.params := rfl
@[simp] theorem setLocals_freeCount (x : Locals) (s : State) : (setLocals x s).freeCount = s.freeCount := rfl
@[simp] theorem setLocals_depth (x : Locals) (s : State) : (setLocals x s).depth = s.depth := rfl
@[simp] theorem setLocals_port (x : Locals) (s : State) : (setLocals x s).port = s.port := rfl

@[simp] theorem setLocal_pc (i : Fin nLocals) (v : Word) (s : State) : (setLocal i v s).pc = s.pc := rfl
@[simp] theorem setLocal_locals (i : Fin nLocals) (v : Word) (s : State) :
    (setLocal i v s).locals = s.locals.set i v := rfl
@[simp] theorem setLocal_stack (i : Fin nLocals) (v : Word) (s : State) : (setLocal i v s).stack = s.stack := rfl
@[simp] theorem setLocal_runState (i : Fin nLocals) (v : Word) (s : State) :
    (setLocal i v s).runState = s.runState := rfl
@[simp] theorem setLocal_faultKind (i : Fin nLocals) (v : Word) (s : State) :
    (setLocal i v s).faultKind = s.faultKind := rfl
@[simp] theorem setLocal_prog (i : Fin nLocals) (v : Word) (s : State) : (setLocal i v s).prog = s.prog := rfl
@[simp] theorem setLocal_progLen (i : Fin nLocals) (v : Word) (s : State) : (setLocal i v s).progLen = s.progLen := rfl
@[simp] theorem setLocal_params (i : Fin nLocals) (v : Word) (s : State) : (setLocal i v s).params = s.params := rfl
@[simp] theorem setLocal_freeCount (i : Fin nLocals) (v : Word) (s : State) :
    (setLocal i v s).freeCount = s.freeCount := rfl
@[simp] theorem setLocal_depth (i : Fin nLocals) (v : Word) (s : State) : (setLocal i v s).depth = s.depth := rfl
@[simp] theorem setLocal_port (i : Fin nLocals) (v : Word) (s : State) : (setLocal i v s).port = s.port := rfl

/-- A register written is read back (10_state.md R16). -/
@[simp] theorem getLocal_setLocal_same (i : Fin nLocals) (v : Word) (s : State) :
    getLocal i (setLocal i v s) = v := by
  simp [getLocal, Vector.get_eq_getElem]

/-- Writing a register leaves every other register alone (41_data_movement.md R65). -/
theorem getLocal_setLocal_other {i j : Fin nLocals} (h : i ≠ j) (v : Word) (s : State) :
    getLocal j (setLocal i v s) = getLocal j s := by
  have : (i : Nat) ≠ j := fun e => h (Fin.ext e)
  simp [getLocal, Vector.get_eq_getElem, this]

@[simp] theorem halt_pc (s : State) : (halt s).pc = s.pc := rfl
@[simp] theorem halt_locals (s : State) : (halt s).locals = s.locals := rfl
@[simp] theorem halt_stack (s : State) : (halt s).stack = s.stack := rfl
@[simp] theorem halt_runState (s : State) : (halt s).runState = .halted := rfl
@[simp] theorem halt_faultKind (s : State) : (halt s).faultKind = s.faultKind := rfl
@[simp] theorem halt_prog (s : State) : (halt s).prog = s.prog := rfl
@[simp] theorem halt_progLen (s : State) : (halt s).progLen = s.progLen := rfl
@[simp] theorem halt_params (s : State) : (halt s).params = s.params := rfl
@[simp] theorem halt_freeCount (s : State) : (halt s).freeCount = s.freeCount := rfl
@[simp] theorem halt_depth (s : State) : (halt s).depth = s.depth := rfl
@[simp] theorem halt_port (s : State) : (halt s).port = s.port := rfl

@[simp] theorem setProgram_pc (m : Memory) (n : Nat) (s : State) : (setProgram m n s).pc = s.pc := rfl
@[simp] theorem setProgram_locals (m : Memory) (n : Nat) (s : State) : (setProgram m n s).locals = s.locals := rfl
@[simp] theorem setProgram_stack (m : Memory) (n : Nat) (s : State) : (setProgram m n s).stack = s.stack := rfl
@[simp] theorem setProgram_runState (m : Memory) (n : Nat) (s : State) :
    (setProgram m n s).runState = s.runState := rfl
@[simp] theorem setProgram_faultKind (m : Memory) (n : Nat) (s : State) :
    (setProgram m n s).faultKind = s.faultKind := rfl
@[simp] theorem setProgram_prog (m : Memory) (n : Nat) (s : State) : (setProgram m n s).prog = m := rfl
@[simp] theorem setProgram_progLen (m : Memory) (n : Nat) (s : State) : (setProgram m n s).progLen = n := rfl
@[simp] theorem setProgram_params (m : Memory) (n : Nat) (s : State) : (setProgram m n s).params = s.params := rfl
@[simp] theorem setProgram_freeCount (m : Memory) (n : Nat) (s : State) :
    (setProgram m n s).freeCount = s.freeCount := rfl

@[simp] theorem raise_pc (k : FaultKind) (s : State) : (raise k s).pc = Config.undefinedPc s.freeCount := rfl
@[simp] theorem raise_locals (k : FaultKind) (s : State) :
    (raise k s).locals = Config.undefinedLocals s.freeCount := rfl
@[simp] theorem raise_stack (k : FaultKind) (s : State) :
    (raise k s).stack = Config.undefinedStack s.freeCount := rfl
@[simp] theorem raise_runState (k : FaultKind) (s : State) : (raise k s).runState = .faulted := rfl
@[simp] theorem raise_faultKind (k : FaultKind) (s : State) : (raise k s).faultKind = some k := rfl
@[simp] theorem raise_prog (k : FaultKind) (s : State) : (raise k s).prog = s.prog := rfl
@[simp] theorem raise_progLen (k : FaultKind) (s : State) : (raise k s).progLen = s.progLen := rfl
@[simp] theorem raise_params (k : FaultKind) (s : State) : (raise k s).params = s.params := rfl
@[simp] theorem raise_freeCount (k : FaultKind) (s : State) : (raise k s).freeCount = s.freeCount + 1 := rfl
@[simp] theorem raise_port (k : FaultKind) (s : State) : (raise k s).port = s.port := rfl

@[simp] theorem resetInput_prog (s : State) : (resetInput s).prog = s.prog := rfl
@[simp] theorem resetInput_progLen (s : State) : (resetInput s).progLen = s.progLen := rfl
@[simp] theorem resetInput_params (s : State) : (resetInput s).params = s.params := rfl
@[simp] theorem resetInput_freeCount (s : State) : (resetInput s).freeCount = s.freeCount := rfl

@[simp] theorem port_len (s : State) : s.port.len = s.progLen := rfl
@[simp] theorem port_byteAt (s : State) : s.port.byteAt = s.prog.read := rfl

end Sys2Proof.Machine
end

