-- ==== Sys2Proof/Laws/Ops.lean ====
section
/-! SUPPORT. Laws/Ops.lean: for each shared operation, once, everything it can do. Proofs about instructions cite these
instead of unfolding the operation. -/

namespace Sys2Proof

/-- `memRead` answers exactly in bounds (20_memory.md R31). -/
theorem memRead_eq_some {port : ProgramPort} {a n : Nat} {bs : List Byte} :
    memRead port a n = some bs ↔ a + n ≤ port.len ∧ bs = (List.range n).map fun k => port.byteAt (a + k) := by
  unfold memRead
  split
  next h => simp [h, eq_comm]
  next h => simp [h]

/-- `read_u8` answers the byte at the cursor in bounds, and `outOfBounds` otherwise (40_decoder.md R55). -/
theorem readU8_eq (port : ProgramPort) (p : Nat) :
    readU8 port p = if p + 1 ≤ port.len then .ok (port.byteAt p, p + 1) else .error .outOfBounds := by
  unfold readU8 memRead
  split_ifs <;> simp [List.range_succ]

/-- `read_i64` answers the little-endian word at the cursor in bounds, and `outOfBounds` otherwise (40_decoder.md R56). -/
theorem readI64_eq (port : ProgramPort) (p : Nat) :
    readI64 port p = if p + 8 ≤ port.len then
      .ok (le64 (port.byteAt p) (port.byteAt (p + 1)) (port.byteAt (p + 2)) (port.byteAt (p + 3)) (port.byteAt (p + 4))
        (port.byteAt (p + 5)) (port.byteAt (p + 6)) (port.byteAt (p + 7)), p + 8)
      else .error .outOfBounds := by
  unfold readI64 memRead
  split_ifs <;> simp [List.range_succ]

end Sys2Proof

namespace Sys2Proof.Machine

open Sys2Proof

theorem pop_nil {s : State} (h : s.stack = []) : pop s = .error .stackUnderflow := by simp [pop, h]

theorem pop_cons {s : State} {v : Word} {rest : List Word} (h : s.stack = v :: rest) :
    pop s = .ok (v, setStack rest s) := by simp [pop, h]

/-- Everything `pop` can do (60_exceptions.md R79). -/
theorem pop_cases (s : State) :
    (s.stack = [] ∧ pop s = .error .stackUnderflow) ∨
      ∃ v rest, s.stack = v :: rest ∧ pop s = .ok (v, setStack rest s) := by
  cases h : s.stack with
  | nil => exact .inl ⟨rfl, pop_nil h⟩
  | cons v rest => exact .inr ⟨v, rest, rfl, pop_cons h⟩

/-- Everything `push` can do (10_state.md R19). -/
theorem push_cases (v : Word) (s : State) :
    (s.params.stackDepth = some s.depth ∧ push v s = .error .stackOverflow) ∨
      (s.params.stackDepth ≠ some s.depth ∧ push v s = .ok (setStack (v :: s.stack) s)) := by
  unfold push
  split
  next h => exact .inl ⟨h, rfl⟩
  next h => exact .inr ⟨h, rfl⟩

theorem push_ok {v : Word} {s : State} (h : s.params.stackDepth ≠ some s.depth) :
    push v s = .ok (setStack (v :: s.stack) s) := by simp [push, h]

/-- Everything `setPosition` can do (40_decoder.md R57). -/
theorem setPosition_cases (p : Nat) (s : State) :
    (s.progLen < p ∧ setPosition p s = .error .outOfBounds) ∨
      (p ≤ s.progLen ∧ setPosition p s = .ok (setPc p s)) := by
  unfold setPosition
  split
  next h => exact .inl ⟨h, rfl⟩
  next h => exact .inr ⟨Nat.le_of_not_lt h, rfl⟩

/-- Everything `indexOperand` can do (30_encoding.md R49). -/
theorem indexOperand_cases (idx : Byte) :
    (nLocals ≤ idx.toNat ∧ indexOperand idx = .error .invalidLocalIndex) ∨
      ∃ h : idx.toNat < nLocals, indexOperand idx = .ok ⟨idx.toNat, h⟩ := by
  unfold indexOperand
  split
  next h => exact .inr ⟨h, rfl⟩
  next h => exact .inl ⟨Nat.le_of_not_lt h, rfl⟩

/-- Everything `unaryOp` can do, in the order of its fault conditions. -/
theorem unaryOp_cases (f : Word → Except FaultKind Word) (s : State) :
    (s.depth < 1 ∧ unaryOp f s = .error .stackUnderflow) ∨
      ∃ a rest, s.stack = a :: rest ∧
        ((∃ k, f a = .error k ∧ unaryOp f s = .error k) ∨
          ∃ r, f a = .ok r ∧ unaryOp f s = push r (setStack rest s)) := by
  rcases pop_cases s with ⟨hs, hp⟩ | ⟨a, rest, hs, hp⟩
  · exact .inl ⟨by simp [State.depth, hs], by simp [unaryOp, hp, bind, Except.bind]⟩
  · refine .inr ⟨a, rest, hs, ?_⟩
    cases hf : f a with
    | error k => exact .inl ⟨k, rfl, by simp [unaryOp, hp, hf, bind, Except.bind]⟩
    | ok r => exact .inr ⟨r, rfl, by simp [unaryOp, hp, hf, bind, Except.bind]⟩

/-- Everything `binaryOp` can do, in the order of its fault conditions (43_arithmetic.md R71). -/
theorem binaryOp_cases (f : Word → Word → Except FaultKind Word) (s : State) :
    (s.depth < 2 ∧ binaryOp f s = .error .stackUnderflow) ∨
      ∃ b a rest, s.stack = b :: a :: rest ∧
        ((∃ k, f a b = .error k ∧ binaryOp f s = .error k) ∨
          ∃ r, f a b = .ok r ∧ binaryOp f s = push r (setStack rest s)) := by
  rcases hst : s.stack with _ | ⟨b, _ | ⟨a, rest⟩⟩
  · exact .inl ⟨by simp [State.depth, hst], by simp [binaryOp, pop_nil hst, bind, Except.bind]⟩
  · refine .inl ⟨by simp [State.depth, hst], ?_⟩
    have h2 : pop (setStack [] s) = .error .stackUnderflow := rfl
    simp [binaryOp, pop_cons hst, h2, bind, Except.bind]
  · refine .inr ⟨b, a, rest, rfl, ?_⟩
    have h2 : pop (setStack (a :: rest) s) = .ok (a, setStack rest s) := rfl
    cases hf : f a b with
    | error k => exact .inl ⟨k, rfl, by simp [binaryOp, pop_cons hst, h2, hf, bind, Except.bind]⟩
    | ok r => exact .inr ⟨r, rfl, by simp [binaryOp, pop_cons hst, h2, hf, bind, Except.bind]⟩

@[simp] theorem finish_ok (s t : State) : finish s (.ok t) = .next t := rfl
@[simp] theorem finish_error (s : State) (k : FaultKind) : finish s (.error k) = .next (raise k s) := rfl

/-- Everything `fetch` can do (40_decoder.md R59). -/
theorem fetch_cases (s : State) :
    (∃ e, decode s.port s.pc = .error e ∧ fetch s = .error (decodeFault e)) ∨
      ∃ i next, decode s.port s.pc = .ok (i, next) ∧ fetch s = .ok (i, next) := by
  unfold fetch
  cases h : decode s.port s.pc with
  | error e => exact .inl ⟨e, rfl, rfl⟩
  | ok r => exact .inr ⟨r.1, r.2, rfl, rfl⟩

end Sys2Proof.Machine
end

