-- ==== Sys2Proof/Laws/Decode.lean ====
section
/-! SUPPORT. Laws/Decode.lean: the literal's bytes, and everything the decoder can answer. -/

namespace Sys2Proof

/-- The little-endian value in Horner form (20_memory.md R32). -/
theorem le64_toNat (b0 b1 b2 b3 b4 b5 b6 b7 : Byte) :
    (le64 b0 b1 b2 b3 b4 b5 b6 b7).toNat =
      b0.toNat + 256 * (b1.toNat + 256 * (b2.toNat + 256 * (b3.toNat + 256 * (b4.toNat + 256 * (b5.toNat
        + 256 * (b6.toNat + 256 * b7.toNat)))))) := by
  have := b0.isLt; have := b1.isLt; have := b2.isLt; have := b3.isLt
  have := b4.isLt; have := b5.isLt; have := b6.isLt; have := b7.isLt
  simp only [le64, BitVec.toNat_ofNat]
  omega

theorem byteOf_toNat (v : Word) (k : Nat) : (byteOf v k).toNat = v.toNat / 256 ^ k % 256 := by
  simp only [byteOf, BitVec.extractLsb'_toNat, Nat.shiftRight_eq_div_pow, Nat.pow_mul]

theorem div_horner {x r : Nat} (hx : x < 2 ^ 8) (k : Nat) : (x + 256 * r) / 256 ^ (k + 1) = r / 256 ^ k := by
  rw [show 256 ^ (k + 1) = 256 * 256 ^ k by rw [Nat.pow_succ, Nat.mul_comm], ← Nat.div_div_eq_div_mul]
  congr 1; omega

/-- The eight bytes of a literal, read back, are the literal (30_encoding.md R52). -/
theorem le64_byteOf (v : Word) :
    le64 (byteOf v 0) (byteOf v 1) (byteOf v 2) (byteOf v 3) (byteOf v 4) (byteOf v 5) (byteOf v 6) (byteOf v 7) = v := by
  refine BitVec.eq_of_toNat_eq ?_
  simp only [le64_toNat, byteOf_toNat]
  have := v.isLt
  omega

/-- The encoding of a literal read from eight bytes is those bytes. -/
theorem encode_pushConst_le64 (b0 b1 b2 b3 b4 b5 b6 b7 : Byte) :
    encode (.pushConst (le64 b0 b1 b2 b3 b4 b5 b6 b7)) = [0x01, b0, b1, b2, b3, b4, b5, b6, b7] := by
  have h0 := b0.isLt; have h1 := b1.isLt; have h2 := b2.isLt; have h3 := b3.isLt
  have h4 := b4.isLt; have h5 := b5.isLt; have h6 := b6.isLt; have h7 := b7.isLt
  have low {x r : Nat} (hx : x < 2 ^ 8) : (x + 256 * r) % 256 = x := by omega
  simp only [encode, List.cons.injEq, true_and, and_true]
  refine ⟨?_, ?_, ?_, ?_, ?_, ?_, ?_, ?_⟩ <;>
    refine BitVec.eq_of_toNat_eq ?_ <;>
    rw [byteOf_toNat, le64_toNat] <;>
    simp only [div_horner, h0, h1, h2, h3, h4, h5, h6, Nat.pow_zero, Nat.div_one, low, Nat.mod_eq_of_lt h7]

/-- The decoder with the port's reads unfolded to bounds checks (40_decoder.md R59). -/
theorem decode_eq (port : ProgramPort) (p : Nat) :
    decode port p =
      if p + 1 ≤ port.len then
        match (port.byteAt p).toNat with
        | 0 => .ok (.halt, p + 1)
        | 1 =>
          if p + 9 ≤ port.len then
            .ok (.pushConst (le64 (port.byteAt (p + 1)) (port.byteAt (p + 2)) (port.byteAt (p + 3)) (port.byteAt (p + 4))
              (port.byteAt (p + 5)) (port.byteAt (p + 6)) (port.byteAt (p + 7)) (port.byteAt (p + 8))), p + 9)
          else .error .outOfBounds
        | 2 => if p + 2 ≤ port.len then .ok (.storeLocal (port.byteAt (p + 1)), p + 2) else .error .outOfBounds
        | 3 => if p + 2 ≤ port.len then .ok (.loadLocal (port.byteAt (p + 1)), p + 2) else .error .outOfBounds
        | 4 => if p + 2 ≤ port.len then .ok (.jump (port.byteAt (p + 1)), p + 2) else .error .outOfBounds
        | 5 => if p + 2 ≤ port.len then .ok (.jumpIfZero (port.byteAt (p + 1)), p + 2) else .error .outOfBounds
        | 6 => .ok (.mul, p + 1)
        | 7 => .ok (.rem, p + 1)
        | 8 => .ok (.lessThan, p + 1)
        | 9 => .ok (.increment, p + 1)
        | _ => .error .invalidOpcode
      else .error .outOfBounds := by
  unfold decode
  rw [readU8_eq]
  by_cases h : p + 1 ≤ port.len
  · simp only [if_pos h, bind, Except.bind, readU8_eq, readI64_eq]
    generalize (port.byteAt p).toNat = op
    rcases op with _ | _ | _ | _ | _ | _ | _ | _ | _ | _ | op <;> first | rfl | (split_ifs <;> rfl)
  · simp only [if_neg h]; rfl

/-- Everything the decoder can answer with an instruction: the opcode byte, the bounds and the operand of each. -/
theorem decode_ok_cases {port : ProgramPort} {p n : Nat} {i : Instr} (h : decode port p = .ok (i, n)) :
    p + 1 ≤ port.len ∧ n ≤ port.len ∧ n = p + i.length ∧
    (((port.byteAt p).toNat = 0 ∧ i = .halt) ∨
      ((port.byteAt p).toNat = 1 ∧ i = .pushConst (le64 (port.byteAt (p + 1)) (port.byteAt (p + 2)) (port.byteAt (p + 3))
        (port.byteAt (p + 4)) (port.byteAt (p + 5)) (port.byteAt (p + 6)) (port.byteAt (p + 7)) (port.byteAt (p + 8)))) ∨
      ((port.byteAt p).toNat = 2 ∧ i = .storeLocal (port.byteAt (p + 1))) ∨
      ((port.byteAt p).toNat = 3 ∧ i = .loadLocal (port.byteAt (p + 1))) ∨
      ((port.byteAt p).toNat = 4 ∧ i = .jump (port.byteAt (p + 1))) ∨
      ((port.byteAt p).toNat = 5 ∧ i = .jumpIfZero (port.byteAt (p + 1))) ∨
      ((port.byteAt p).toNat = 6 ∧ i = .mul) ∨ ((port.byteAt p).toNat = 7 ∧ i = .rem) ∨
      ((port.byteAt p).toNat = 8 ∧ i = .lessThan) ∨ ((port.byteAt p).toNat = 9 ∧ i = .increment)) := by
  rw [decode_eq] at h
  split at h
  next hp =>
    refine ⟨hp, ?_⟩
    split at h
    all_goals first
      | cases h; rename_i ho; exact ⟨hp, rfl, by simp [ho]⟩
      | split at h
        next hq => cases h; rename_i ho; exact ⟨hq, rfl, by simp [ho]⟩
        next => cases h
      | cases h
  next => cases h

end Sys2Proof
end

