-- ==== Sys2Proof/Laws/Exec.lean ====
section
/-! SUPPORT. Laws/Exec.lean: each execute stage as one flat equation, every condition in the order it is tested. -/

namespace Sys2Proof.Machine

open Sys2Proof

/-- Where `push` onto the stack `rest` ends, in the state `s` (10_state.md R19). -/
def afterPush (v : Word) (rest : List Word) (s : State) : State :=
  if s.params.stackDepth = some rest.length then raise .stackOverflow s else setStack (v :: rest) s

/-- Where a repositioning to `p`, with the stack `rest` left, ends in the state `s` (40_decoder.md R57). -/
def afterPosition (p : Nat) (rest : List Word) (s : State) : State :=
  if s.progLen < p then raise .outOfBounds s else setPc p (setStack rest s)

theorem afterPush_full {rest : List Word} {s : State} (h : s.params.stackDepth = some rest.length) (v : Word) :
    afterPush v rest s = raise .stackOverflow s := if_pos h

theorem afterPush_room {rest : List Word} {s : State} (h : s.params.stackDepth ≠ some rest.length) (v : Word) :
    afterPush v rest s = setStack (v :: rest) s := if_neg h

theorem afterPosition_outside {p : Nat} {s : State} (h : s.progLen < p) (rest : List Word) :
    afterPosition p rest s = raise .outOfBounds s := if_pos h

theorem afterPosition_inside {p : Nat} {s : State} (h : p ≤ s.progLen) (rest : List Word) :
    afterPosition p rest s = setPc p (setStack rest s) := if_neg (Nat.not_lt.2 h)

theorem finish_push (v : Word) (rest : List Word) (s : State) :
    finish s (push v (setStack rest s)) = .next (afterPush v rest s) := by
  rcases push_cases v (setStack rest s) with ⟨h, hp⟩ | ⟨h, hp⟩
  · rw [hp, afterPush_full (show s.params.stackDepth = some rest.length from h)]; rfl
  · rw [hp, afterPush_room (show s.params.stackDepth ≠ some rest.length from h)]; rfl

theorem finish_setPosition (p : Nat) (rest : List Word) (s : State) :
    finish s (setPosition p (setStack rest s)) = .next (afterPosition p rest s) := by
  rcases setPosition_cases p (setStack rest s) with ⟨h, hp⟩ | ⟨h, hp⟩
  · rw [hp, afterPosition_outside (s := s) h]; rfl
  · rw [hp, afterPosition_inside (s := s) h]; rfl

theorem exec_halt (s : State) : exec .halt s = .next (halt s) := rfl

theorem exec_pushConst (imm : Word) (s : State) : exec (.pushConst imm) s = .next (afterPush imm s.stack s) :=
  finish_push imm s.stack s

theorem exec_storeLocal (idx : Byte) (s : State) :
    exec (.storeLocal idx) s = .next
      (if h : idx.toNat < nLocals then
        match s.stack with
        | [] => raise .stackUnderflow s
        | v :: rest => setLocal ⟨idx.toNat, h⟩ v (setStack rest s)
      else raise .invalidLocalIndex s) := by
  simp only [exec, execStoreLocal]
  rcases indexOperand_cases idx with ⟨h, hx⟩ | ⟨h, hx⟩
  · rw [hx, dif_neg (Nat.not_lt.2 h)]; rfl
  · rw [dif_pos h]
    rcases pop_cases s with ⟨hs, hp⟩ | ⟨v, rest, hs, hp⟩ <;> simp [hx, hp, hs, bind, Except.bind]

theorem exec_loadLocal (idx : Byte) (s : State) :
    exec (.loadLocal idx) s = .next
      (if h : idx.toNat < nLocals then afterPush (getLocal ⟨idx.toNat, h⟩ s) s.stack s
      else raise .invalidLocalIndex s) := by
  simp only [exec, execLoadLocal]
  rcases indexOperand_cases idx with ⟨h, hx⟩ | ⟨h, hx⟩
  · rw [hx, dif_neg (Nat.not_lt.2 h)]; rfl
  · rw [hx, dif_pos h]
    exact finish_push _ s.stack s

theorem exec_jump (tgt : Byte) (s : State) : exec (.jump tgt) s = .next (afterPosition tgt.toNat s.stack s) :=
  finish_setPosition tgt.toNat s.stack s

theorem exec_jumpIfZero (tgt : Byte) (s : State) :
    exec (.jumpIfZero tgt) s = .next
      (match s.stack with
      | [] => raise .stackUnderflow s
      | v :: rest => if v = 0 then afterPosition tgt.toNat rest s else setStack rest s) := by
  simp only [exec, execJumpIfZero, targetOperand]
  rcases pop_cases s with ⟨hs, hp⟩ | ⟨v, rest, hs, hp⟩
  · simp [hp, hs, bind, Except.bind]
  · by_cases hv : v = 0
    · subst hv
      simp only [hp, hs, bind, Except.bind, if_true]
      exact finish_setPosition tgt.toNat rest s
    · have hz : isZero v = false := by simpa [isZero] using hv
      simp only [hp, hs, hz, bind, Except.bind, if_neg hv]; rfl

/-- The shape of a two-operand instruction whose computation may fault. -/
theorem finish_binaryOp (f : Word → Word → Except FaultKind Word) (s : State) :
    finish s (binaryOp f s) = .next
      (match s.stack with
      | b :: a :: rest =>
        match f a b with
        | .error k => raise k s
        | .ok r => afterPush r rest s
      | _ => raise .stackUnderflow s) := by
  rcases binaryOp_cases f s with ⟨hd, h⟩ | ⟨b, a, rest, hs, ⟨k, hf, h⟩ | ⟨r, hf, h⟩⟩
  · rw [h]
    rcases hs : s.stack with _ | ⟨b, _ | ⟨a, rest⟩⟩
    · rfl
    · rfl
    · simp [State.depth, hs] at hd
  · rw [h, hs]; simp [hf]
  · rw [h, hs, finish_push]; simp [hf]

theorem exec_mul (s : State) :
    exec .mul s = .next
      (match s.stack with
      | b :: a :: rest => afterPush (wrap64 (a.toInt * b.toInt)) rest s
      | _ => raise .stackUnderflow s) :=
  finish_binaryOp _ s

theorem exec_rem (s : State) :
    exec .rem s = .next
      (match s.stack with
      | b :: a :: rest => if b = 0 then raise .divisionByZero s else afterPush (trem a b) rest s
      | _ => raise .stackUnderflow s) := by
  refine (finish_binaryOp remOrFault s).trans ?_
  rcases s.stack with _ | ⟨b, _ | ⟨a, rest⟩⟩ <;> try rfl
  simp only [remOrFault]
  split_ifs <;> rfl

theorem exec_lessThan (s : State) :
    exec .lessThan s = .next
      (match s.stack with
      | b :: a :: rest => afterPush (boolWord (signedLess a b)) rest s
      | _ => raise .stackUnderflow s) :=
  finish_binaryOp _ s

theorem exec_increment (s : State) :
    exec .increment s = .next
      (match s.stack with
      | [] => raise .stackUnderflow s
      | a :: rest => afterPush (wrap64 (a.toInt + 1)) rest s) := by
  simp only [exec, execIncrement]
  rcases unaryOp_cases (fun a => .ok (wrap64 (a.toInt + 1))) s with ⟨hd, h⟩ | ⟨a, rest, hs, ⟨k, hf, -⟩ | ⟨r, hf, h⟩⟩
  · rw [h]
    rcases hs : s.stack with _ | ⟨a, rest⟩
    · rfl
    · simp [State.depth, hs] at hd
  · cases hf
  · cases hf
    rw [h, hs, finish_push]

/-- `Rem` computes exactly when the divisor is not zero (43_arithmetic.md R75). -/
theorem remOrFault_ok {a b r : Word} : remOrFault a b = .ok r ↔ b ≠ 0 ∧ r = trem a b := by
  unfold remOrFault
  split
  next h => simp [h]
  next h => simp only [Except.ok.injEq, eq_comm, ne_eq, h, not_false_eq_true, true_and]

/-- What the two-operand instruction `i` pushes for the left operand `a` and the right operand `b`. -/
def BinaryResult (i : Instr) (a b r : Word) : Prop :=
  (i = .mul ∧ r = wrap64 (a.toInt * b.toInt)) ∨ (i = .rem ∧ b ≠ 0 ∧ r = trem a b) ∨
    (i = .lessThan ∧ r = boolWord (signedLess a b))

theorem afterPush_cases (v : Word) (rest : List Word) (s : State) :
    afterPush v rest s = raise .stackOverflow s ∨
      (s.params.stackDepth ≠ some rest.length ∧ afterPush v rest s = setStack (v :: rest) s) := by
  unfold afterPush
  split
  next => exact .inl rfl
  next h => exact .inr ⟨h, rfl⟩

theorem afterPosition_cases (p : Nat) (rest : List Word) (s : State) :
    afterPosition p rest s = raise .outOfBounds s ∨
      (p ≤ s.progLen ∧ afterPosition p rest s = setPc p (setStack rest s)) := by
  unfold afterPosition
  split
  next => exact .inl rfl
  next h => exact .inr ⟨Nat.le_of_not_lt h, rfl⟩

/-- Everything an execute stage can do: one fault and nothing else, or the instruction's whole effect under its guard. -/
theorem exec_cases (i : Instr) (s : State) :
    (∃ k, exec i s = .next (raise k s)) ∨
      (i = .halt ∧ exec i s = .next (halt s)) ∨
      (∃ v, i = .pushConst v ∧ s.params.stackDepth ≠ some s.depth ∧
        exec i s = .next (setStack (v :: s.stack) s)) ∨
      (∃ idx, ∃ h : idx.toNat < nLocals, ∃ v rest, i = .storeLocal idx ∧ s.stack = v :: rest ∧
        exec i s = .next (setLocal ⟨idx.toNat, h⟩ v (setStack rest s))) ∨
      (∃ idx, ∃ h : idx.toNat < nLocals, i = .loadLocal idx ∧ s.params.stackDepth ≠ some s.depth ∧
        exec i s = .next (setStack (getLocal ⟨idx.toNat, h⟩ s :: s.stack) s)) ∨
      (∃ tgt, i = .jump tgt ∧ tgt.toNat ≤ s.progLen ∧ exec i s = .next (setPc tgt.toNat s)) ∨
      (∃ tgt rest, i = .jumpIfZero tgt ∧ s.stack = 0 :: rest ∧ tgt.toNat ≤ s.progLen ∧
        exec i s = .next (setPc tgt.toNat (setStack rest s))) ∨
      (∃ tgt v rest, i = .jumpIfZero tgt ∧ s.stack = v :: rest ∧ v ≠ 0 ∧ exec i s = .next (setStack rest s)) ∨
      (∃ b a r rest, BinaryResult i a b r ∧ s.stack = b :: a :: rest ∧
        s.params.stackDepth ≠ some rest.length ∧ exec i s = .next (setStack (r :: rest) s)) ∨
      (∃ a rest, i = .increment ∧ s.stack = a :: rest ∧ s.params.stackDepth ≠ some rest.length ∧
        exec i s = .next (setStack (wrap64 (a.toInt + 1) :: rest) s)) := by
  have binary {b a r : Word} {rest : List Word} (hi : BinaryResult i a b r) (hs : s.stack = b :: a :: rest)
      (he : exec i s = .next (afterPush r rest s)) :
      (∃ k, exec i s = .next (raise k s)) ∨
      (∃ b a r rest, BinaryResult i a b r ∧ s.stack = b :: a :: rest ∧
        s.params.stackDepth ≠ some rest.length ∧ exec i s = .next (setStack (r :: rest) s)) := by
    rcases afterPush_cases r rest s with h | ⟨hd, h⟩
    · exact .inl ⟨_, by rw [he, h]⟩
    · exact .inr ⟨b, a, r, rest, hi, hs, hd, by rw [he, h]⟩
  cases i with
  | halt => exact .inr (.inl ⟨rfl, rfl⟩)
  | pushConst v =>
    rcases afterPush_cases v s.stack s with h | ⟨hd, h⟩
    · exact .inl ⟨_, by rw [exec_pushConst, h]⟩
    · exact .inr (.inr (.inl ⟨v, rfl, hd, by rw [exec_pushConst, h]⟩))
  | storeLocal idx =>
    by_cases hi : idx.toNat < nLocals
    · rcases hs : s.stack with _ | ⟨v, rest⟩
      · exact .inl ⟨_, by rw [exec_storeLocal, dif_pos hi, hs]⟩
      · exact .inr (.inr (.inr (.inl ⟨idx, hi, v, rest, rfl, rfl, by rw [exec_storeLocal, dif_pos hi, hs]⟩)))
    · exact .inl ⟨_, by rw [exec_storeLocal, dif_neg hi]⟩
  | loadLocal idx =>
    by_cases hi : idx.toNat < nLocals
    · rcases afterPush_cases (getLocal ⟨idx.toNat, hi⟩ s) s.stack s with h | ⟨hd, h⟩
      · exact .inl ⟨_, by rw [exec_loadLocal, dif_pos hi, h]⟩
      · exact .inr (.inr (.inr (.inr (.inl ⟨idx, hi, rfl, hd, by rw [exec_loadLocal, dif_pos hi, h]⟩))))
    · exact .inl ⟨_, by rw [exec_loadLocal, dif_neg hi]⟩
  | jump tgt =>
    rcases afterPosition_cases tgt.toNat s.stack s with h | ⟨hl, h⟩
    · exact .inl ⟨_, by rw [exec_jump, h]⟩
    · exact .inr (.inr (.inr (.inr (.inr (.inl ⟨tgt, rfl, hl, by rw [exec_jump, h]; rfl⟩)))))
  | jumpIfZero tgt =>
    rcases hs : s.stack with _ | ⟨v, rest⟩
    · exact .inl ⟨_, by rw [exec_jumpIfZero, hs]⟩
    · by_cases hv : v = 0
      · subst hv
        rcases afterPosition_cases tgt.toNat rest s with h | ⟨hl, h⟩
        · exact .inl ⟨.outOfBounds, by rw [exec_jumpIfZero, hs]; simp only [if_true, h]⟩
        · exact .inr (.inr (.inr (.inr (.inr (.inr (.inl
            ⟨tgt, rest, rfl, rfl, hl, by rw [exec_jumpIfZero, hs]; simp only [if_true, h]⟩))))))
      · exact .inr (.inr (.inr (.inr (.inr (.inr (.inr (.inl
          ⟨tgt, v, rest, rfl, rfl, hv, by rw [exec_jumpIfZero, hs]; simp only [if_neg hv]⟩)))))))
  | mul =>
    rcases hs : s.stack with _ | ⟨b, _ | ⟨a, rest⟩⟩
    · exact .inl ⟨_, by rw [exec_mul, hs]⟩
    · exact .inl ⟨_, by rw [exec_mul, hs]⟩
    · rcases binary (.inl ⟨rfl, rfl⟩) hs (by rw [exec_mul, hs]) with h | h
      · exact .inl h
      · exact .inr (.inr (.inr (.inr (.inr (.inr (.inr (.inr (.inl (hs ▸ h)))))))))
  | rem =>
    rcases hs : s.stack with _ | ⟨b, _ | ⟨a, rest⟩⟩
    · exact .inl ⟨_, by rw [exec_rem, hs]⟩
    · exact .inl ⟨_, by rw [exec_rem, hs]⟩
    · by_cases hb : b = 0
      · exact .inl ⟨.divisionByZero, by rw [exec_rem, hs]; simp only [if_pos hb]⟩
      · rcases binary (.inr (.inl ⟨rfl, hb, rfl⟩)) hs (by rw [exec_rem, hs]; simp only [if_neg hb]) with h | h
        · exact .inl h
        · exact .inr (.inr (.inr (.inr (.inr (.inr (.inr (.inr (.inl (hs ▸ h)))))))))
  | lessThan =>
    rcases hs : s.stack with _ | ⟨b, _ | ⟨a, rest⟩⟩
    · exact .inl ⟨_, by rw [exec_lessThan, hs]⟩
    · exact .inl ⟨_, by rw [exec_lessThan, hs]⟩
    · rcases binary (.inr (.inr ⟨rfl, rfl⟩)) hs (by rw [exec_lessThan, hs]) with h | h
      · exact .inl h
      · exact .inr (.inr (.inr (.inr (.inr (.inr (.inr (.inr (.inl (hs ▸ h)))))))))
  | increment =>
    rcases hs : s.stack with _ | ⟨a, rest⟩
    · exact .inl ⟨_, by rw [exec_increment, hs]⟩
    · rcases afterPush_cases (wrap64 (a.toInt + 1)) rest s with h | ⟨hd, h⟩
      · exact .inl ⟨.stackOverflow, by rw [exec_increment, hs]; simp only [h]⟩
      · exact .inr (.inr (.inr (.inr (.inr (.inr (.inr (.inr (.inr
          ⟨a, rest, rfl, rfl, hd, by rw [exec_increment, hs]; simp only [h]⟩))))))))

end Sys2Proof.Machine
end

