-- ==== Sys2Proof/Laws/PerInstr.lean ====
section
/-! SUPPORT. Laws/PerInstr.lean: statements about every instruction as syntax, one lemma per constructor. -/

namespace Sys2Proof.Laws.EncodingShape

open Sys2Proof

/-- An instruction's encoding has the length its format gives, and is 1, 2 or 9 bytes long (30_encoding.md R42). -/
def Statement (i : Instr) : Prop :=
  (encode i).length = i.length ∧ (i.length = 1 ∨ i.length = 2 ∨ i.length = 9)

theorem halt : Statement .halt := ⟨rfl, .inl rfl⟩
theorem pushConst (imm : Word) : Statement (.pushConst imm) := ⟨rfl, .inr (.inr rfl)⟩
theorem storeLocal (idx : Byte) : Statement (.storeLocal idx) := ⟨rfl, .inr (.inl rfl)⟩
theorem loadLocal (idx : Byte) : Statement (.loadLocal idx) := ⟨rfl, .inr (.inl rfl)⟩
theorem jump (tgt : Byte) : Statement (.jump tgt) := ⟨rfl, .inr (.inl rfl)⟩
theorem jumpIfZero (tgt : Byte) : Statement (.jumpIfZero tgt) := ⟨rfl, .inr (.inl rfl)⟩
theorem mul : Statement .mul := ⟨rfl, .inl rfl⟩
theorem rem : Statement .rem := ⟨rfl, .inl rfl⟩
theorem lessThan : Statement .lessThan := ⟨rfl, .inl rfl⟩
theorem increment : Statement .increment := ⟨rfl, .inl rfl⟩

end Sys2Proof.Laws.EncodingShape
end

