-- ==== Sys2Proof/Laws/Step.lean ====
section
/-! SUPPORT. Laws/Step.lean: everything a step can do, said once. -/

namespace Sys2Proof.Machine

open Sys2Proof

/-- Everything a step from a Running, admitted state can do (40_decoder.md R58, R59). -/
theorem step_ready {s : State} (h : s.Ready) :
    (∃ e, decode s.port s.pc = .error e ∧ step s = .next (raise (decodeFault e) s)) ∨
      ∃ i next, decode s.port s.pc = .ok (i, next) ∧ step s = exec i (setPc next s) := by
  have hlen : ¬ s.params.maxProgLen < s.progLen := Nat.not_lt.2 h.2
  rcases fetch_cases s with ⟨e, hd, hf⟩ | ⟨i, next, hd, hf⟩
  · exact .inl ⟨e, hd, by simp [step, h.1, hlen, hf]⟩
  · exact .inr ⟨i, next, hd, by simp [step, h.1, hlen, hf]⟩

/-- A step that answers a next state began in a Running, admitted state (10_state.md R20; 00_scope.md R7). -/
theorem ready_of_step {s t : State} (h : step s = .next t) : s.Ready := by
  unfold step at h
  split at h
  · cases h
  · cases h
  next hr =>
    split at h
    · cases h
    next hl => exact ⟨hr, Nat.le_of_not_lt hl⟩

/-- Halted has no step (10_state.md R20). -/
theorem step_halted {s : State} (h : s.runState = .halted) : step s = .fault .haltedHasNoStep := by simp [step, h]

/-- Faulted has no step (10_state.md R20). -/
theorem step_faulted {s : State} (h : s.runState = .faulted) : step s = .fault .faultedHasNoStep := by simp [step, h]

/-! ### Runs -/

@[simp] theorem core_run_zero (s : State) : Sys2Proof.core.run 0 s = .next s := rfl

theorem core_run_next {s t : State} (h : step s = .next t) (n : Nat) :
    Sys2Proof.core.run (n + 1) s = Sys2Proof.core.run n t := by
  have h : Sys2Proof.core.step s = .next t := h
  simp [Host.Core.run, h]

/-- A run of more than one step that answers a next state began with a step. -/
theorem core_run_succ {s u : State} {n : Nat} (h : Sys2Proof.core.run (n + 1) s = .next u) :
    ∃ t, step s = .next t ∧ Sys2Proof.core.run n t = .next u := by
  cases hs : step s with
  | next t => exact ⟨t, rfl, (core_run_next hs n).symm.trans h⟩
  | fault f =>
    have hs : Sys2Proof.core.step s = .fault f := hs
    simp [Host.Core.run, hs] at h
  | refused r =>
    have hs : Sys2Proof.core.step s = .refused r := hs
    simp [Host.Core.run, hs] at h

/-- An ended run delivers its result whatever fuel is left (70_reset_and_hazards.md R104). -/
theorem runSteps_ended {s : State} {r : RunResult} (h : outcomeOf s = some r) (n : Nat) : runSteps n s = .ended r := by
  cases n <;> simp [runSteps, h]

theorem runSteps_zero {s : State} (h : outcomeOf s = none) : runSteps 0 s = .outOfFuel := by simp [runSteps, h]

theorem runSteps_next {s t : State} (h : outcomeOf s = none) (hs : step s = .next t) (n : Nat) :
    runSteps (n + 1) s = runSteps n t := by simp [runSteps, h, hs]

/-! ### Faults -/

/-- A fault taken is a fault raised. -/
theorem raises_of_eq {o : Host.Outcome State Fault Refusal} {k : FaultKind} {s : State} (h : o = .next (raise k s)) :
    Raises o k s := ⟨_, h, rfl, rfl, rfl, rfl, rfl⟩

end Sys2Proof.Machine
end

