-- ==== Sys2Proof/Tests/Slice0.lean ====
section
/-! SUPPORT. Tests/Slice0.lean: small tests with expected results from the spec (95_test_vectors.md, 30_encoding.md), and for
each statement with hypotheses a concrete state and operands that meet them. -/

namespace Sys2Proof.Tests

open Sys2Proof Sys2Proof.Machine

/-! ### Helpers -/

/-- The reset state with a Program supplied and a stack given top first. -/
def boot (bytes : List Byte) (stack : List Word) : State := setStack stack (supplyProgram bytes State.reset)

/-- The same with a stack of finite capacity. -/
def capped (d : Nat) (bytes : List Byte) (stack : List Word) : State :=
  { boot bytes stack with params := { maxProgLen := 256, stackDepth := some d } }

/-- A Program of `n` bytes, all zero but `bytes` from address `p` on; the cursor at `p`. -/
def bootAt (p n : Nat) (bytes : List Byte) (stack : List Word) : State :=
  setPc p (boot (List.replicate p 0 ++ bytes ++ List.replicate (n - p - bytes.length) 0) stack)

/-- Seven literal bytes of one value. -/
abbrev seven (b : Byte) : List Byte := List.replicate 7 b

def decodesTo (bytes : List Byte) (p : Nat) (i : Instr) (next : Nat) : Bool :=
  match decode (portOfBytes bytes) p with
  | .ok (j, n) => j == i && n == next
  | .error _ => false

def decodeFails (bytes : List Byte) (p : Nat) (e : DecodeError) : Bool :=
  match decode (portOfBytes bytes) p with
  | .ok _ => false
  | .error f => f == e

def nextOf : Host.Outcome State Fault Refusal → Option State
  | .next t => some t
  | _ => none

/-- Stack (top first), cursor and status after one step. -/
def after (s : State) : Option (List Word × Nat × RunState) := (nextOf (step s)).map fun t => (t.stack, t.pc, t.runState)

/-- Status and kind after one step. Nothing else is defined after a fault (60_exceptions.md R88). -/
def faultAfter (s : State) : Option (RunState × Option FaultKind) :=
  (nextOf (step s)).map fun t => (t.runState, t.faultKind)

/-- One register after one step. -/
def localAfter (j : Fin nLocals) (s : State) : Option Word := (nextOf (step s)).map (getLocal j)

/-- `exec` answers a next state that is not Faulted. -/
def completes (i : Instr) (s : State) : Bool :=
  match exec i s with
  | .next t => t.runState != .faulted
  | _ => false

theorem next_of_completes {i : Instr} {s : State} (h : completes i s = true) :
    ∃ t, exec i s = .next t ∧ t.runState ≠ .faulted := by
  unfold completes at h
  split at h
  next t ht => exact ⟨t, ht, by simpa using h⟩
  next => cases h

/-! ### Well-formedness: an ill-formed term for each check -/

theorem test_wellFormed_refuses_store_8 : (Instr.storeLocal 8).wellFormed = false := by decide
theorem test_wellFormed_refuses_load_8 : (Instr.loadLocal 8).wellFormed = false := by decide
theorem test_wellFormed_accepts_7 :
    (Instr.storeLocal 7).wellFormed = true ∧ (Instr.loadLocal 7).wellFormed = true ∧ (Instr.jump 255).wellFormed = true := by
  decide

/-! ### Decoding: words written out bit by bit from 30_encoding.md -/

/-- Format N: the opcode number in the eight bits of the one byte. -/
theorem test_decode_format_n :
    decodesTo [0b00000000] 0 .halt 1 = true ∧ decodesTo [0b00000110] 0 .mul 1 = true ∧
    decodesTo [0b00000111] 0 .rem 1 = true ∧ decodesTo [0b00001000] 0 .lessThan 1 = true ∧
    decodesTo [0b00001001] 0 .increment 1 = true := by decide

/-- Format C: opcode 1, then the literal's bits 7..0 first and bits 63..56 last. -/
theorem test_decode_format_c :
    decodesTo [0b00000001, 0b00001000, 0b00000111, 0b00000110, 0b00000101, 0b00000100, 0b00000011, 0b00000010, 0b00000001]
      0 (.pushConst 0x0102030405060708) 9 = true ∧
    decodesTo [0b00000001, 0b11111001, 0b11111111, 0b11111111, 0b11111111, 0b11111111, 0b11111111, 0b11111111, 0b11111111]
      0 (.pushConst (-7)) 9 = true := by decide

/-- Format I: opcode 2 or 3, then the index; all eight bits of the index count. -/
theorem test_decode_format_i :
    decodesTo [0b00000010, 0b00000111] 0 (.storeLocal 7) 2 = true ∧
    decodesTo [0b00000010, 0b00001000] 0 (.storeLocal 8) 2 = true ∧
    decodesTo [0b00000011, 0b11111111] 0 (.loadLocal 255) 2 = true := by decide

/-- Format T: opcode 4 or 5, then the target, unsigned. -/
theorem test_decode_format_t :
    decodesTo [0b00000100, 0b00010110] 0 (.jump 22) 2 = true ∧
    decodesTo [0b00000101, 0b11111111] 0 (.jumpIfZero 255) 2 = true := by decide

/-- All eight opcode bits are decoded; an invalid opcode as the last byte is not OutOfBounds (95_test_vectors.md §2.1). -/
theorem test_decode_rejects :
    decodeFails [0x0A] 0 .invalidOpcode = true ∧ decodeFails [0x10] 0 .invalidOpcode = true ∧
    decodeFails [0xC8] 0 .invalidOpcode = true ∧ decodeFails [0xFF] 0 .invalidOpcode = true ∧
    decodeFails [] 0 .outOfBounds = true ∧ decodeFails [0x00] 1 .outOfBounds = true ∧
    decodeFails [0x01, 1, 0, 0] 0 .outOfBounds = true ∧ decodeFails (0x01 :: seven 0) 0 .outOfBounds = true ∧
    decodeFails [0x02] 0 .outOfBounds = true ∧ decodeFails [0x03] 0 .outOfBounds = true ∧
    decodeFails [0x04] 0 .outOfBounds = true ∧ decodeFails [0x05] 0 .outOfBounds = true := by decide

/-- The same bytes decode differently from another offset (95_test_vectors.md §2.1, program P5). -/
theorem test_decode_inside_an_instruction :
    decodesTo [4, 3, 1, 3, 0, 9, 2, 1, 0, 0xC8, 0xC8] 2 (.pushConst 0xC8C8000102090003) 11 = true ∧
    decodesTo [4, 3, 1, 3, 0, 9, 2, 1, 0, 0xC8, 0xC8] 3 (.loadLocal 0) 5 = true := by decide

/-- The literal encodings of 95_test_vectors.md §2.1. -/
theorem test_encode_literals :
    encode (.pushConst 100000007) = [0x01, 0x07, 0xE1, 0xF5, 0x05, 0, 0, 0, 0] ∧
    encode (.pushConst maxWord) = 0x01 :: seven 0xFF ++ [0x7F] ∧ encode (.pushConst minWord) = 0x01 :: seven 0 ++ [0x80] ∧
    encode (.pushConst (-256)) = 0x01 :: 0x00 :: seven 0xFF := by decide

/-- Table words: byte 0 is bits 7..0, and bits above `nbits` are 0. -/
theorem test_decodeTableWord :
    decodeTableWord 8 0x06 = some .mul ∧ decodeTableWord 16 0x0702 = some (.storeLocal 7) ∧
    decodeTableWord 72 0x800000000000000001 = some (.pushConst minWord) ∧ decodeTableWord 8 0x05 = some (.jumpIfZero 0) ∧
    decodeTableWord 8 0x0A = none := by decide

/-- The first step after reset runs the word that was placed. -/
theorem test_withFetchWord_runs_it :
    after (State.reset.withFetchWord 72 0x2A01) = some ([42], 9, .running) ∧
    after (State.reset.withFetchWord 8 0x00) = some ([], 1, .halted) ∧
    after (State.reset.withFetchWord 16 0x0704) = some ([], 7, .running) := by decide

/-! ### One step of each instruction (95_test_vectors.md §2.2 to §2.5) -/

theorem test_pushConst : after (boot [0x01, 0x2A, 0, 0, 0, 0, 0, 0, 0] [3]) = some ([42, 3], 9, .running) := by decide

theorem test_pushConst_overflow :
    faultAfter (capped 1 [0x01, 0x2A, 0, 0, 0, 0, 0, 0, 0] [3]) = some (.faulted, some .stackOverflow) := by decide

theorem test_storeLocal :
    after (boot [0x02, 0x02] [7, 3]) = some ([3], 2, .running) ∧ localAfter 2 (boot [0x02, 0x02] [7, 3]) = some 7 ∧
    localAfter 1 (boot [0x02, 0x02] [7, 3]) = some 0 := by decide

/-- `02 08` on an empty stack: decision D7. -/
theorem test_storeLocal_faults :
    faultAfter (boot [0x02, 0x08] []) = some (.faulted, some .invalidLocalIndex) ∧
    faultAfter (boot [0x02, 0xFF] [1]) = some (.faulted, some .invalidLocalIndex) ∧
    faultAfter (boot [0x02, 0x00] []) = some (.faulted, some .stackUnderflow) ∧
    faultAfter (boot [0x02] []) = some (.faulted, some .outOfBounds) := by decide

theorem test_loadLocal :
    after (setLocal 1 (-5) (boot [0x03, 0x01] [])) = some ([-5], 2, .running) ∧
    after (boot [0x03, 0x04] []) = some ([0], 2, .running) := by decide

theorem test_loadLocal_faults :
    faultAfter (boot [0x03, 0x08] []) = some (.faulted, some .invalidLocalIndex) ∧
    faultAfter (boot [0x03, 0xFF] [1]) = some (.faulted, some .invalidLocalIndex) := by decide

theorem test_halt : after (boot [0x00] [2, 1]) = some ([2, 1], 1, .halted) := by decide

theorem test_jump :
    after (bootAt 48 51 [0x04, 0x16] [5]) = some ([5], 22, .running) ∧
    after (boot [0x04, 0x02] []) = some ([], 2, .running) ∧
    faultAfter (boot [0x04, 0x05] []) = some (.faulted, some .outOfBounds) := by decide

theorem test_jumpIfZero :
    after (bootAt 34 51 [0x05, 0x32] [0, 9]) = some ([9], 50, .running) ∧
    after (bootAt 34 51 [0x05, 0x32] [1, 9]) = some ([9], 36, .running) ∧
    after (bootAt 34 51 [0x05, 0x32] [minWord]) = some ([], 36, .running) := by decide

/-- A jump not taken does not examine its target: decision D19. -/
theorem test_jumpIfZero_bad_target :
    after (bootAt 9 12 [0x05, 0xFF] [1]) = some ([], 11, .running) ∧
    faultAfter (bootAt 9 12 [0x05, 0xFF] [0]) = some (.faulted, some .outOfBounds) ∧
    faultAfter (boot [0x05, 0x00] []) = some (.faulted, some .stackUnderflow) := by decide

theorem test_mul :
    after (boot [0x06] [3, -7]) = some ([-21], 1, .running) ∧ after (boot [0x06] [2, maxWord]) = some ([-2], 1, .running) ∧
    after (boot [0x06] [-1, minWord]) = some ([minWord], 1, .running) ∧
    after (boot [0x06] [3037000500, 3037000500]) = some ([0x8000000008ABC290], 1, .running) := by decide

theorem test_rem :
    after (boot [0x07] [3, -7]) = some ([-1], 1, .running) ∧ after (boot [0x07] [-3, 7]) = some ([1], 1, .running) ∧
    after (boot [0x07] [3, minWord]) = some ([-2], 1, .running) ∧
    after (boot [0x07] [minWord, maxWord]) = some ([maxWord], 1, .running) ∧
    after (boot [0x07] [-1, minWord]) = some ([0], 1, .running) := by decide

theorem test_rem_faults :
    faultAfter (boot [0x07] [0, 5]) = some (.faulted, some .divisionByZero) ∧
    faultAfter (boot [0x07] [0]) = some (.faulted, some .stackUnderflow) := by decide

theorem test_lessThan :
    after (boot [0x08] [0, -1]) = some ([1], 1, .running) ∧ after (boot [0x08] [2, 2]) = some ([0], 1, .running) ∧
    after (boot [0x08] [minWord, maxWord]) = some ([0], 1, .running) := by decide

theorem test_increment :
    after (boot [0x09] [maxWord]) = some ([minWord], 1, .running) ∧ after (boot [0x09] [-1]) = some ([0], 1, .running) ∧
    faultAfter (boot [0x09] []) = some (.faulted, some .stackUnderflow) := by decide

theorem test_fetch_faults :
    faultAfter State.reset = some (.faulted, some .outOfBounds) ∧
    faultAfter (boot [0xC8] []) = some (.faulted, some .invalidOpcode) := by decide

/-! ### Witnesses: the hypotheses of the statements are met -/

/-- A `StepsAs` witness: the bytes stand at the cursor of a Running, admitted state. -/
abbrev Stands (bytes : List Byte) : Prop := (boot bytes [1, 1]).At bytes

/-- A `FetchFaults` witness: the Program ends before the opcode byte, and one byte short of the instruction's end. -/
abbrev EndsEarly (op : Byte) (len : Nat) : Prop :=
  ((boot [] []).Ready ∧ (boot [] []).progLen ≤ (boot [] []).pc) ∧
  (let s := boot (op :: List.replicate (len - 2) 0) []
   s.Ready ∧ (1 < len → memRead s.port s.pc 1 = some [op] ∧ s.progLen < s.pc + len ∧ s.progLen + 1 = s.pc + len))

theorem witness_DecodeOfEncodeIsTheInstruction :
    memRead (portOfBytes (0x06 :: encode (.pushConst (-7)))) 1 (encode (.pushConst (-7))).length =
      some (encode (.pushConst (-7))) := by decide

theorem witness_DecodedBytesAreTheEncoding :
    decode (portOfBytes [0x06, 0x02, 0xFF]) 1 = .ok (.storeLocal 255, 3) := rfl

/-- A three-byte Program and a longer one that agrees on the instruction and differs after it. -/
theorem witness_OpcodeFixesTheLength :
    decode (portOfBytes [0x06, 0x04, 0x01]) 1 = .ok (.jump 1, 3) ∧
    3 ≤ (portOfBytes [0x00, 0x04, 0x01, 0xC8]).len ∧
    ∀ a, 1 ≤ a → a < 3 → (portOfBytes [0x00, 0x04, 0x01, 0xC8]).byteAt a = (portOfBytes [0x06, 0x04, 0x01]).byteAt a := by
  refine ⟨rfl, by decide, fun a h1 h2 => ?_⟩
  obtain rfl | rfl : a = 1 ∨ a = 2 := by omega
  all_goals rfl

theorem witness_ReadByteAdvancesByOneOrFaults :
    1 < (portOfBytes [0x02, 0x05]).len ∧ (portOfBytes [0x02, 0x05]).len ≤ 2 := by decide

theorem witness_ReadLiteralAdvancesByEightOrFaults :
    1 + 8 ≤ (portOfBytes (0x01 :: 0xFE :: seven 0xFF)).len ∧ (portOfBytes (0x01 :: 0xFE :: seven 0xFF)).len < 2 + 8 := by
  decide

/-- In bounds to the last byte; one past; a fetch at the end; a truncated operand; a jump and a taken branch one past the
end. -/
theorem witness_AccessIsInBoundsOrFaults :
    1 + 2 ≤ (portOfBytes [6, 7, 8]).len ∧ (portOfBytes [6, 7, 8]).len < 2 + 2 ∧
    ((setPc 1 (boot [0x00] [])).Ready ∧ (setPc 1 (boot [0x00] [])).progLen ≤ (setPc 1 (boot [0x00] [])).pc) ∧
    (let s := boot [0x05] []
     s.Ready ∧ s.pc < s.progLen ∧ (s.port.byteAt s.pc).toNat < 10 ∧
       s.progLen < s.pc + 1 + operandBytes (s.port.byteAt s.pc).toNat) ∧
    (boot [0x04, 0x03] []).progLen < (3 : Byte).toNat ∧
    ((boot [0x05, 0x03] [0]).stack = 0 :: [] ∧ (boot [0x05, 0x03] [0]).progLen < (3 : Byte).toNat) := by decide

theorem witness_RepositioningAcceptsTheEnd :
    2 ≤ (boot [0x04, 0x02] []).progLen ∧ (boot [0x04, 0x02] []).progLen < 3 ∧ (boot [0x04, 0x02] []).Ready := by decide

theorem witness_StepRunsTheDecodedInstruction :
    ((boot [0x06] [2, 3]).Ready ∧ decode (boot [0x06] [2, 3]).port (boot [0x06] [2, 3]).pc = .ok (.mul, 1)) ∧
    (boot [0x0A] []).Ready ∧ decode (boot [0x0A] []).port (boot [0x0A] []).pc = .error .invalidOpcode :=
  ⟨⟨by decide, rfl⟩, by decide, rfl⟩

/-- One byte more than the parameter admits is refused; exactly as many are not. -/
theorem witness_StepIsTotalExactlyWhileRunning :
    (setProgram [] 256 State.reset).Ready ∧ (halt State.reset).runState = .halted ∧
    (raise .divisionByZero State.reset).runState = .faulted ∧
    (setProgram [] 257 State.reset).runState = .running ∧
    (setProgram [] 257 State.reset).params.maxProgLen < (setProgram [] 257 State.reset).progLen := by decide

/-- A step to Halted, one to Faulted and one that stays Running. -/
theorem witness_RunStateMovesOnlyByHaltOrFault :
    (boot [0x00] []).faultKind = none ∧ step (boot [0x00] []) = .next (halt (setPc 1 (boot [0x00] []))) ∧
    step (boot [0x0A] []) = .next (raise .invalidOpcode (boot [0x0A] [])) ∧
    step (boot [0x04, 0x00] []) = .next (setPc 0 (boot [0x04, 0x00] [])) := ⟨rfl, rfl, rfl, rfl⟩

/-- A step past one instruction, a jump to the end, a branch taken and one not taken. -/
theorem witness_CursorAdvancesOrJumps :
    (∃ t, step (boot [0x09] [1]) = .next t ∧ t.runState ≠ .faulted) ∧
    (∃ t, step (boot [0x04, 0x02] []) = .next t ∧ t.runState ≠ .faulted) ∧
    (∃ t, step (boot [0x05, 0x00] [0]) = .next t ∧ t.runState ≠ .faulted) ∧
    (∃ t, step (boot [0x05, 0xFF] [1]) = .next t ∧ t.runState ≠ .faulted) :=
  ⟨⟨_, rfl, by decide⟩, ⟨_, rfl, by decide⟩, ⟨_, rfl, by decide⟩, ⟨_, rfl, by decide⟩⟩

theorem witness_CursorIsNeverData : ∃ t, exec .mul (boot [] [2, 3]) = .next t := ⟨_, rfl⟩

theorem witness_ProgramNeverChanges :
    (∃ t, step (boot [0x02, 0x00] [7]) = .next t) ∧ ∃ t, exec (.storeLocal 0) (boot [0x02, 0x00] [7]) = .next t :=
  ⟨⟨_, rfl⟩, ⟨_, rfl⟩⟩

/-- Another byte after the instruction, and after an invalid opcode. -/
theorem witness_UnfetchedBytesAreNeverExamined :
    (let s := boot [0x09, 0xC8] [1]
     s.Ready ∧ decode s.port s.pc = .ok (.increment, 1) ∧
       (∀ a, s.pc ≤ a → a < 1 → Memory.read [(0, 0x09), (1, 0x01)] a = s.prog.read a) ∧
       s.prog ≠ [(0, 0x09), (1, 0x01)]) ∧
    (let s := boot [0xC8, 0x07] []
     s.Ready ∧ decode s.port s.pc = .error .invalidOpcode ∧ Memory.read [(0, 0xC8)] s.pc = s.prog.read s.pc) := by
  refine ⟨⟨by decide, rfl, fun a h1 h2 => ?_, by decide⟩, by decide, rfl, by decide⟩
  obtain rfl : a = 0 := by omega
  decide

/-- An unbounded stack, a finite one with one free place, a full one; the instruction at the cursor, and cut short. -/
theorem witness_PushConstPushesTheLiteral :
    (boot [] [1]).params.stackDepth ≠ some (boot [] [1]).depth ∧
    (capped 1 [] []).params.stackDepth ≠ some (capped 1 [] []).depth ∧
    (capped 1 [] [5]).params.stackDepth = some (capped 1 [] [5]).depth ∧
    Stands (0x01 :: 0xFE :: seven 0xFF) ∧ EndsEarly 0x01 9 := by decide

/-- Index 7 with and without an entry, index 8; the instruction at the cursor, and cut short. -/
theorem witness_StoreLocalPopsIntoTheRegister :
    ((7 : Byte).toNat < nLocals ∧ (boot [] [4]).stack = 4 :: []) ∧ nLocals ≤ (8 : Byte).toNat ∧ (boot [] []).stack = [] ∧
    Stands [0x02, 0x07] ∧ EndsEarly 0x02 2 := by decide

/-- Index 7 with room and on a full stack, index 8; the instruction at the cursor, and cut short. -/
theorem witness_LoadLocalPushesTheRegister :
    ((7 : Byte).toNat < nLocals ∧ (capped 1 [] []).params.stackDepth ≠ some (capped 1 [] []).depth) ∧
    nLocals ≤ (8 : Byte).toNat ∧ (capped 1 [] [5]).params.stackDepth = some (capped 1 [] [5]).depth ∧
    Stands [0x03, 0x07] ∧ EndsEarly 0x03 2 := by decide

theorem witness_HaltStopsAndKeepsTheSnapshot :
    exec .halt (boot [0x00] [2, 1]) = .next (halt (boot [0x00] [2, 1])) ∧ Stands [0x00] ∧ EndsEarly 0x00 1 :=
  ⟨rfl, by decide, by decide⟩

/-- A target equal to `PROG_LEN` and one past it; the instruction at the cursor, and cut short. -/
theorem witness_JumpSetsTheCursor :
    (2 : Byte).toNat ≤ (boot [0x04, 0x02] []).progLen ∧ (boot [0x04, 0x03] []).progLen < (3 : Byte).toNat ∧
    Stands [0x04, 0x02] ∧ EndsEarly 0x04 2 := by decide

/-- Taken to `PROG_LEN`, not taken, an empty stack, taken to one past `PROG_LEN`; at the cursor, and cut short. -/
theorem witness_JumpIfZeroPopsAndTests :
    ((boot [0x05, 0x02] [0, 9]).stack = 0 :: [9] ∧ (2 : Byte).toNat ≤ (boot [0x05, 0x02] [0, 9]).progLen) ∧
    ((boot [0x05, 0x02] [1]).stack = 1 :: [] ∧ (1 : Word) ≠ 0) ∧ (boot [0x05, 0x02] []).stack = [] ∧
    ((boot [0x05, 0x03] [0]).stack = 0 :: [] ∧ (boot [0x05, 0x03] [0]).progLen < (3 : Byte).toNat) ∧
    Stands [0x05, 0x02] ∧ EndsEarly 0x05 2 := by decide

/-- Two entries on a full stack of capacity 2, and depths 0 and 1; shared by the three two-operand instructions. -/
theorem witness_two_operands :
    ((capped 2 [] [7, 6]).depth ≤ 2 ∧ (capped 2 [] [7, 6]).stack = 7 :: 6 :: []) ∧
    (boot [] []).depth < 2 ∧ (boot [] [1]).depth < 2 := by decide

theorem witness_depthBounded (d : Nat) (bytes : List Byte) (stack : List Word) (h : stack.length ≤ d) :
    (capped d bytes stack).DepthBounded := fun _ hc => by cases hc; exact h

theorem witness_MulPushesTheWrappedProduct :
    (capped 2 [] [7, 6]).DepthBounded ∧ (capped 2 [] [7, 6]).stack = 7 :: 6 :: [] ∧ (boot [] []).depth < 2 ∧
    (boot [] [1]).depth < 2 ∧ Stands [0x06] ∧ EndsEarly 0x06 1 :=
  ⟨witness_depthBounded 2 _ _ (by decide), by decide, by decide, by decide, by decide, by decide⟩

theorem witness_RemPushesTheTruncatedRemainder :
    ((capped 2 [] [3, -7]).DepthBounded ∧ (capped 2 [] [3, -7]).stack = 3 :: (-7) :: [] ∧ (3 : Word) ≠ 0) ∧
    (boot [] [0, 5]).stack = 0 :: 5 :: [] ∧ (boot [] [0]).depth < 2 ∧ Stands [0x07] ∧ EndsEarly 0x07 1 :=
  ⟨⟨witness_depthBounded 2 _ _ (by decide), by decide, by decide⟩, by decide, by decide, by decide, by decide⟩

theorem witness_LessThanPushesTheSignedComparison :
    (capped 2 [] [0, -1]).DepthBounded ∧ (capped 2 [] [0, -1]).stack = 0 :: (-1) :: [] ∧ (boot [] [1]).depth < 2 ∧
    Stands [0x08] ∧ EndsEarly 0x08 1 :=
  ⟨witness_depthBounded 2 _ _ (by decide), by decide, by decide, by decide, by decide⟩

theorem witness_IncrementWrapsTheTop :
    (capped 1 [] [maxWord]).DepthBounded ∧ (capped 1 [] [maxWord]).stack = maxWord :: [] ∧ (boot [] []).stack = [] ∧
    Stands [0x09] ∧ EndsEarly 0x09 1 :=
  ⟨witness_depthBounded 1 _ _ (by decide), by decide, by decide, by decide, by decide⟩

theorem witness_ArithmeticFrame :
    (∃ t, exec .mul (boot [] [7, 6]) = .next t ∧ t.runState ≠ .faulted) ∧
    (∃ t, exec .rem (boot [] [7, 6]) = .next t ∧ t.runState ≠ .faulted) ∧
    (∃ t, exec .lessThan (boot [] [7, 6]) = .next t ∧ t.runState ≠ .faulted) ∧
    ∃ t, exec .increment (boot [] [6]) = .next t ∧ t.runState ≠ .faulted :=
  ⟨next_of_completes (by decide), next_of_completes (by decide), next_of_completes (by decide),
    next_of_completes (by decide)⟩

theorem witness_DataMovementFrame :
    (∃ t, exec (.pushConst 42) (boot [] [3]) = .next t ∧ t.runState ≠ .faulted) ∧
    (∃ t, exec (.storeLocal 7) (boot [] [3]) = .next t ∧ t.runState ≠ .faulted) ∧
    (∃ t, exec (.loadLocal 7) (boot [] [3]) = .next t ∧ t.runState ≠ .faulted) ∧
    ∀ idx, Instr.storeLocal 7 = .storeLocal idx → idx.toNat ≠ (6 : Fin nLocals) :=
  ⟨next_of_completes (by decide), next_of_completes (by decide), next_of_completes (by decide),
    fun _ h => by cases h; decide⟩

theorem witness_ControlFrame :
    (∃ t, exec .halt (boot [] [3]) = .next t ∧ t.runState ≠ .faulted) ∧
    (∃ t, exec (.jump 0) (boot [] [3]) = .next t ∧ t.runState ≠ .faulted) ∧
    (∃ t, exec (.jumpIfZero 0) (boot [] [0]) = .next t ∧ t.runState ≠ .faulted) ∧
    ∃ t, exec (.jumpIfZero 255) (boot [] [3]) = .next t ∧ t.runState ≠ .faulted :=
  ⟨next_of_completes (by decide), next_of_completes (by decide), next_of_completes (by decide),
    next_of_completes (by decide)⟩

/-- An instruction that is no store, one that is no load, a load of register 7 and a store to it. -/
theorem witness_OnlyStoreAndLoadReachTheRegisters :
    ((∀ idx, Instr.loadLocal 3 ≠ .storeLocal idx) ∧
      ∃ t, exec (.loadLocal 3) (boot [] []) = .next t ∧ t.runState ≠ .faulted) ∧
    ((∀ idx, Instr.mul ≠ .loadLocal idx) ∧ ∃ t, exec .mul (boot [] [7, 6]) = .next t) ∧
    (∃ t, exec (.loadLocal 7) (boot [] []) = .next t ∧ t.runState ≠ .faulted) ∧
    ∃ t, exec (.storeLocal 7) (boot [] [7]) = .next t ∧ t.runState ≠ .faulted :=
  ⟨⟨nofun, next_of_completes (by decide)⟩, ⟨nofun, _, rfl⟩, next_of_completes (by decide),
    next_of_completes (by decide)⟩

/-- An instruction that completes, and one with one entry too few. -/
theorem witness_StackEffectIsTheTable :
    (∃ t, exec .mul (boot [] [7, 6]) = .next t ∧ t.runState ≠ .faulted) ∧
    (boot [] [7]).depth < popsOf (opcodeOf .mul) ∧ Instr.mul.wellFormed = true :=
  ⟨next_of_completes (by decide), by decide, by decide⟩

/-- Register 7 stored from a stack of one entry and loaded again, with a capacity of 1. -/
theorem witness_StoreThenLoadGivesTheValueBack :
    ∃ t u, (capped 1 [] [9]).runState ≠ .faulted ∧ exec (.storeLocal 7) (capped 1 [] [9]) = .next t ∧
      t.runState ≠ .faulted ∧ exec (.loadLocal 7) t = .next u ∧ u.runState ≠ .faulted :=
  ⟨_, _, by decide, rfl, by decide, rfl, by decide⟩

theorem witness_WrapIsTheLowSixtyFourBits : minWord.toInt ≡ 9223372036854775808 [ZMOD 2 ^ 64] := by decide

theorem witness_RemainderIsTruncated : (3 : Word) ≠ 0 ∧ (trem (-7) 3).toInt ≠ 0 ∧ (0 : Word) = 0 := by decide

theorem witness_LiteralIsLittleEndian :
    readI64 (portOfBytes (0x01 :: 0xFE :: seven 0xFF)) 1 = .ok (-2, 9) := rfl

theorem witness_RemOfMinByMinusOneIsZero :
    (capped 2 [] [-1, minWord]).DepthBounded ∧ (capped 2 [] [-1, minWord]).stack = (-1) :: minWord :: [] :=
  ⟨witness_depthBounded 2 _ _ (by decide), by decide⟩

/-- Opcodes 9 and 10, either side of the boundary. -/
theorem witness_InvalidOpcodeCause :
    (let s := boot [0x0A] []
     s.Ready ∧ s.faultKind = none ∧ s.pc < s.progLen ∧ 10 ≤ (s.port.byteAt s.pc).toNat) ∧
    (let s := boot [0x09] []
     s.Ready ∧ s.faultKind = none ∧ ¬ 10 ≤ (s.port.byteAt s.pc).toNat) := by decide

theorem witness_DivisionByZeroCause : (boot [] [0, 5]).faultKind = none ∧ (boot [] [0, 5]).stack = 0 :: 5 :: [] := by decide

/-- Each of the three cases of the cause: StoreLocal 7, Increment and JumpIfZero at depth 0, Mul at depths 0 and 1. -/
theorem witness_StackUnderflowCause :
    (boot [] []).faultKind = none ∧ (7 : Byte).toNat < nLocals ∧ (boot [] []).depth = 0 ∧ (boot [] [1]).depth = 1 := by decide

theorem witness_InvalidLocalIndexCause : (boot [] []).faultKind = none ∧ 8 ≤ (8 : Byte).toNat := by decide

/-- One state for each of the five places. -/
theorem witness_OutOfBoundsCause :
    (let s := boot [] []
     s.Ready ∧ s.faultKind = none ∧ s.progLen ≤ s.pc) ∧
    (let s := boot [0x02] []
     s.Ready ∧ s.faultKind = none ∧ memRead s.port s.pc 1 = some [0x02] ∧ s.progLen < s.pc + 2) ∧
    (let s := boot (0x01 :: seven 0) []
     s.Ready ∧ s.faultKind = none ∧ memRead s.port s.pc 1 = some [0x01] ∧ s.progLen < s.pc + 9) ∧
    (let s := boot [0x04, 0x03] []
     s.Ready ∧ s.faultKind = none ∧ memRead s.port s.pc 2 = some [0x04, 0x03] ∧ s.progLen < (3 : Byte).toNat) ∧
    (let s := boot [0x05, 0x03] [0]
     s.Ready ∧ s.faultKind = none ∧ memRead s.port s.pc 2 = some [0x05, 0x03] ∧ s.stack = 0 :: [] ∧
       s.progLen < (3 : Byte).toNat) := by decide

/-- A full stack, and a LoadLocal index of 7. -/
theorem witness_StackOverflowCause :
    (capped 1 [] [5]).faultKind = none ∧ (capped 1 [] [5]).DepthBounded ∧
    (capped 1 [] [5]).params.stackDepth = some (capped 1 [] [5]).depth ∧ (7 : Byte).toNat < nLocals :=
  ⟨rfl, witness_depthBounded 1 _ _ (by decide), by decide, by decide⟩

theorem witness_BaselineRaisesOnlyTheFiveFaults :
    (boot [0x06] []).params.stackDepth = none ∧ (boot [0x06] []).faultKind = none ∧
    ∃ t, step (boot [0x06] []) = .next t ∧ t.faultKind = some .stackUnderflow := ⟨rfl, rfl, _, rfl, rfl⟩

/-- A Ready state for each rank of the table, and one where no condition holds. -/
theorem witness_EveryStepFollowsThePriorityTable :
    ([boot [] [], boot [0x0A] [], boot [0x02] [], boot [0x02, 0x08] [], boot [0x07] [0], boot [0x07] [0, 5],
      boot [0x05, 0x03] [0], capped 1 [0x03, 0x07] [5], boot [0x06] [7, 6]].map firstFault) =
    [some .outOfBounds, some .invalidOpcode, some .outOfBounds, some .invalidLocalIndex, some .stackUnderflow,
      some .divisionByZero, some .outOfBounds, some .stackOverflow, none] ∧
    (boot [0x06] [7, 6]).Ready ∧ (boot [0x07] [0]).Ready ∧ (capped 1 [0x03, 0x07] [5]).Ready := by decide

theorem witness_StepKeepsTheInvariant :
    (capped 2 [0x06] [7, 6]).Inv ∧ ∃ t, step (capped 2 [0x06] [7, 6]) = .next t :=
  ⟨⟨by decide, by decide, by decide, by decide, fun _ => by decide,
      fun _ => witness_depthBounded 2 _ _ (by decide), fun h => by cases h⟩, _, rfl⟩

theorem witness_EveryLaunchHasTheInvariant :
    (raise .divisionByZero State.reset).params.legal = true ∧ (capped 1 [] []).params.legal = true := by decide

/-- A loop that branches to its first byte or jumps to its last, at an instruction boundary and at the end. -/
theorem witness_CheckedProgramStaysOnBoundaries :
    (let s := boot [0x05, 0x00, 0x04, 0x04, 0x00] [0]
     wellFormedProgram s.port = true ∧ s.faultKind = none ∧ s.AtBoundary ∧ ∃ t, step s = .next t ∧ t.runState ≠ .faulted) ∧
    (let s := setPc 1 (boot [0x09] [])
     wellFormedProgram s.port = true ∧ s.faultKind = none ∧ s.AtBoundary ∧
       ∃ t, step s = .next t ∧ t.faultKind = some .outOfBounds) :=
  ⟨⟨by decide, rfl, by decide, _, rfl, by decide⟩, by decide, rfl, by decide, _, rfl, rfl⟩

theorem witness_CheckedProgramNeverMisdecodes :
    (let s := boot [0x04, 0x00] []
     wellFormedProgram s.port = true ∧ s = resetInput s ∧ ∃ t, Sys2Proof.core.run 2 s = .next t) :=
  ⟨by decide, rfl, _, rfl⟩

theorem witness_HostReadsSnapshotOrKind :
    (boot [] []).runState = .running ∧ (halt (boot [] [2, 1])).runState = .halted ∧
    (raise .stackUnderflow (boot [] [])).runState = .faulted := by decide

theorem witness_RunFromAnotherStateIsRefused : boot [0x00] [5] ≠ resetInput (boot [0x00] [5]) := by decide

/-- A one-byte Program that faults in its first step (95_test_vectors.md §2.5, `06`). -/
theorem witness_MoreFuelGivesTheSameResult : run 1 (boot [0x06] []) = .ended (.faulted (some .stackUnderflow)) := by decide

theorem witness_RunDeliversExactlyWhatTheStepsReach :
    run 1 (boot [0x00] []) = .ended (.halted ⟨[], Vector.replicate nLocals 0⟩) := by decide

end Sys2Proof.Tests
end

section
/-! PROOFS. The Program space (20_memory.md): the byte order of a literal, and the bounds rule. -/

namespace Sys2Proof

/-! ### The literal's byte order (20_memory.md R32) -/

/-- The sum in powers of two, as the rule writes it: eight bytes never reach `2^64`, so nothing is cut off. -/
theorem le64_toNat_powers (b0 b1 b2 b3 b4 b5 b6 b7 : Byte) :
    (le64 b0 b1 b2 b3 b4 b5 b6 b7).toNat =
      b0.toNat + b1.toNat * 2 ^ 8 + b2.toNat * 2 ^ 16 + b3.toNat * 2 ^ 24 + b4.toNat * 2 ^ 32
        + b5.toNat * 2 ^ 40 + b6.toNat * 2 ^ 48 + b7.toNat * 2 ^ 56 := by
  rw [le64_toNat]
  ring

/-- The sign of a literal is the top bit of its last byte: the seven bytes below it sum to less than `2^56`. -/
theorem le64_msb (b0 b1 b2 b3 b4 b5 b6 b7 : Byte) : (le64 b0 b1 b2 b3 b4 b5 b6 b7).msb = b7.msb := by
  rw [BitVec.msb_eq_decide, BitVec.msb_eq_decide, decide_eq_decide, le64_toNat]
  omega

theorem le64_toInt_neg_iff (b0 b1 b2 b3 b4 b5 b6 b7 : Byte) :
    (le64 b0 b1 b2 b3 b4 b5 b6 b7).toInt < 0 ↔ b7.getLsbD 7 = true := by
  have hlast : b7.getLsbD 7 = b7.msb := (BitVec.msb_eq_getLsbD_last b7).symm
  rw [hlast, ← le64_msb b0 b1 b2 b3 b4 b5 b6 b7, BitVec.msb_eq_toInt, decide_eq_true_iff]

/-- What `read_i64` returns, when it returns: the word at the cursor, the lowest address first (40_decoder.md R56). -/
theorem readI64_ok_value {port : ProgramPort} {p next : Nat} {v : Word} (h : readI64 port p = .ok (v, next)) :
    v = le64 (port.byteAt p) (port.byteAt (p + 1)) (port.byteAt (p + 2)) (port.byteAt (p + 3))
      (port.byteAt (p + 4)) (port.byteAt (p + 5)) (port.byteAt (p + 6)) (port.byteAt (p + 7)) := by
  rw [readI64_eq] at h
  split at h
  · cases h; rfl
  · cases h

/-! ### The bounds rule (20_memory.md R31) -/

theorem memRead_inBounds {port : ProgramPort} {a n : Nat} (h : a + n ≤ port.len) :
    ∃ bs, memRead port a n = some bs ∧ bs.length = n ∧ ∀ k, k < n → bs[k]? = some (port.byteAt (a + k)) :=
  ⟨_, memRead_eq_some.2 ⟨h, rfl⟩, by simp, fun k hk => by simp [hk]⟩

theorem memRead_outOfBounds {port : ProgramPort} {a n : Nat} (h : port.len < a + n) : memRead port a n = none :=
  if_neg (Nat.not_le.2 h)

theorem decode_opcode_outOfBounds {port : ProgramPort} {p : Nat} (h : port.len ≤ p) :
    decode port p = .error .outOfBounds := by
  rw [decode_eq, if_neg (by omega)]

end Sys2Proof

namespace Sys2Proof.Machine

open Sys2Proof

/-- An operand cut short by the end of the Program, the opcode byte itself inside it: the literal and the one-byte operands
are checked whole, and an opcode without an operand has none to cut short (30_encoding.md R50). -/
theorem decode_operand_outOfBounds {port : ProgramPort} {p : Nat} (hp : p < port.len)
    (h : port.len < p + 1 + operandBytes (port.byteAt p).toNat) :
    decode port p = .error .outOfBounds := by
  have hfetch : p + 1 ≤ port.len := hp
  rw [decode_eq, if_pos hfetch]
  generalize (port.byteAt p).toNat = op at h
  unfold operandBytes at h
  split_ifs at h with hliteral hbyte
  · subst hliteral
    exact if_neg (by omega)
  · obtain ⟨hlo, hhi⟩ := hbyte
    interval_cases op <;> exact if_neg (by omega)
  · omega

/-- A fetch that runs past the end makes the whole step raise OutOfBounds (40_decoder.md R59). -/
theorem step_raises_of_decode_outOfBounds {s : State} (hr : s.Ready)
    (hd : decode s.port s.pc = .error .outOfBounds) : Raises (step s) .outOfBounds s := by
  rcases step_ready hr with ⟨e, he, hs⟩ | ⟨i, next, hi, -⟩
  · cases hd.symm.trans he
    exact raises_of_eq hs
  · cases hd.symm.trans hi

theorem exec_jump_outOfBounds {tgt : Byte} {s : State} (h : s.progLen < tgt.toNat) :
    Raises (exec (.jump tgt) s) .outOfBounds s :=
  raises_of_eq (by rw [exec_jump, afterPosition_outside h])

theorem exec_jumpIfZero_outOfBounds {tgt : Byte} {s : State} {rest : List Word} (hs : s.stack = 0 :: rest)
    (h : s.progLen < tgt.toNat) : Raises (exec (.jumpIfZero tgt) s) .outOfBounds s :=
  raises_of_eq (by simp [exec_jumpIfZero, hs, afterPosition_outside h])

/-! ### The obligations of the family -/

/-- Settles O8: the value and the sign for every eight bytes, then the rule's three examples by evaluation. -/
theorem literalIsLittleEndian : Obligations.LiteralIsLittleEndian := by
  refine ⟨fun b0 b1 b2 b3 b4 b5 b6 b7 => ⟨?_, ?_⟩, fun _ _ _ _ => readI64_ok_value, ?_, ?_, ?_⟩
  · exact le64_toNat_powers b0 b1 b2 b3 b4 b5 b6 b7
  · exact le64_toInt_neg_iff b0 b1 b2 b3 b4 b5 b6 b7
  · decide
  · decide
  · decide

/-- Settles O9: the access itself, the opcode fetch, the operand fetch, and the two repositionings. -/
theorem accessIsInBoundsOrFaults : Obligations.AccessIsInBoundsOrFaults := by
  refine ⟨fun _ _ _ => ⟨memRead_inBounds, memRead_outOfBounds⟩, ?_, ?_, ?_, ?_⟩
  · exact fun _ hr h => step_raises_of_decode_outOfBounds hr (decode_opcode_outOfBounds h)
  · exact fun _ hr hp _ h => step_raises_of_decode_outOfBounds hr (decode_operand_outOfBounds hp h)
  · exact fun _ _ => exec_jump_outOfBounds
  · exact fun _ _ _ => exec_jumpIfZero_outOfBounds

end Sys2Proof.Machine
end

section
/-! PROOFS. The encoding (30_encoding.md): the opcode byte fixes the length, and the instruction's own bytes fix its decoding. -/

namespace Sys2Proof.Machine

open Sys2Proof

theorem opcodeOf_lt (i : Instr) : opcodeOf i < 10 := by cases i <;> simp [opcodeOf]

/-- The opcode byte and the operand bytes it announces are the whole instruction (30_encoding.md R46, R47). -/
theorem length_eq_operandBytes (i : Instr) : i.length = 1 + operandBytes (opcodeOf i) := by cases i <;> rfl

/-- The table of operand counts (30_encoding.md R47), counted with the opcode byte. -/
theorem operandBytes_table {op : Nat} (h : op < 10) :
    ((op = 0 ∨ op = 6 ∨ op = 7 ∨ op = 8 ∨ op = 9) ∧ 1 + operandBytes op = 1) ∨
      ((op = 2 ∨ op = 3 ∨ op = 4 ∨ op = 5) ∧ 1 + operandBytes op = 2) ∨ (op = 1 ∧ 1 + operandBytes op = 9) := by
  unfold operandBytes
  split_ifs <;> omega

theorem decode_ok_opcodeOf {port : ProgramPort} {p next : Nat} {i : Instr} (h : decode port p = .ok (i, next)) :
    opcodeOf i = (port.byteAt p).toNat := by
  obtain ⟨-, -, -, hcases⟩ := decode_ok_cases h
  rcases hcases with ⟨ho, rfl⟩ | ⟨ho, rfl⟩ | ⟨ho, rfl⟩ | ⟨ho, rfl⟩ | ⟨ho, rfl⟩ | ⟨ho, rfl⟩ | ⟨ho, rfl⟩ | ⟨ho, rfl⟩ |
    ⟨ho, rfl⟩ | ⟨ho, rfl⟩ <;> exact ho.symm

/-- Decoding reads the instruction's own bytes and nothing else: the opcode byte is the same, so the same row of the opcode
map answers, and each operand byte it reads lies below the end of the instruction. -/
theorem decode_ok_of_agree {port port' : ProgramPort} {p next : Nat} {i : Instr} (h : decode port p = .ok (i, next))
    (hlen : next ≤ port'.len) (hagree : ∀ a, p ≤ a → a < next → port'.byteAt a = port.byteAt a) :
    decode port' p = .ok (i, next) := by
  obtain ⟨-, -, rfl, hcases⟩ := decode_ok_cases h
  have hlength := length_eq_operandBytes i
  have hopcode : port'.byteAt p = port.byteAt p := hagree p (by omega) (by omega)
  have hoperand (k : Nat) (hk : k < i.length) : port'.byteAt (p + k) = port.byteAt (p + k) :=
    hagree _ (by omega) (by omega)
  rw [decode_eq, if_pos (by omega), hopcode]
  rcases hcases with ⟨ho, rfl⟩ | ⟨ho, rfl⟩ | ⟨ho, rfl⟩ | ⟨ho, rfl⟩ | ⟨ho, rfl⟩ | ⟨ho, rfl⟩ | ⟨ho, rfl⟩ | ⟨ho, rfl⟩ |
    ⟨ho, rfl⟩ | ⟨ho, rfl⟩
  all_goals
    simp only [Instr.length] at hlen hoperand ⊢
    simp [ho, hlen, hoperand]

/-- Settles O5: the length comes from the opcode by the table of operand counts, the decoding from the agreeing bytes. -/
theorem opcodeFixesTheLength : Obligations.OpcodeFixesTheLength := by
  intro port p i next h
  have hop : opcodeOf i = (port.byteAt p).toNat := decode_ok_opcodeOf h
  have hnext : next = p + (1 + operandBytes (opcodeOf i)) := by
    obtain ⟨-, -, hnext, -⟩ := decode_ok_cases h
    rw [hnext, length_eq_operandBytes]
  refine ⟨⟨hop, ?_⟩, fun _ => decode_ok_of_agree h⟩
  rw [← hop, hnext]
  have htable := operandBytes_table (opcodeOf_lt i)
  simpa only [Nat.add_left_cancel_iff] using htable

end Sys2Proof.Machine
end

section
/-! PROOFS. The decoder's cursor reads (40_decoder.md R55, R56): one bounds test decides between the value and OutOfBounds. -/

namespace Sys2Proof

/-- Settles O6: the closed form of `read_u8`, on either side of its bounds test. -/
theorem readByteAdvancesByOneOrFaults : Obligations.ReadByteAdvancesByOneOrFaults := by
  intro port p
  rw [readU8_eq]
  constructor
  · intro hin
    exact if_pos hin
  · intro hpast
    exact if_neg (by omega)

/-- Settles O7: the closed form of `read_i64`, on either side of its bounds test. -/
theorem readLiteralAdvancesByEightOrFaults : Obligations.ReadLiteralAdvancesByEightOrFaults := by
  intro port p
  rw [readI64_eq]
  constructor
  · intro hin
    exact if_pos hin
  · intro hpast
    exact if_neg (by omega)

end Sys2Proof
end

section
/-! PROOFS. Control (42_control.md): the fetch half of an instruction, said for every instruction, and Halt. -/

namespace Sys2Proof

theorem byteAt_of_memRead {port : ProgramPort} {a n : Nat} {bs : List Byte} (h : memRead port a n = some bs) {k : Nat}
    {b : Byte} (hb : bs[k]? = some b) : port.byteAt (a + k) = b := by
  obtain ⟨-, rfl⟩ := memRead_eq_some.1 h
  simpa using (List.getElem?_eq_some_iff.1 hb).2

/-- Where the encoding of an instruction stands, the decoder answers that instruction and the address just past it: the
opcode byte selects its row of the opcode map, and the operand bytes give its operand back (30_encoding.md R52). -/
theorem decode_of_memRead_encode {port : ProgramPort} {p : Nat} {i : Instr}
    (h : memRead port p (encode i).length = some (encode i)) :
    decode port p = .ok (i, p + (encode i).length) := by
  obtain ⟨hin, -⟩ := memRead_eq_some.1 h
  have hbyte {k : Nat} {b : Byte} (hb : (encode i)[k]? = some b) : port.byteAt (p + k) = b := byteAt_of_memRead h hb
  have hopcode {b : Byte} (hb : (encode i)[0]? = some b) : port.byteAt p = b := hbyte hb
  have hfetch : p + 1 ≤ port.len := by cases i <;> exact Nat.le_trans (by simp [encode]) hin
  rw [decode_eq, if_pos hfetch]
  cases i with
  | pushConst v =>
    rw [hopcode rfl, hbyte (k := 1) rfl, hbyte (k := 2) rfl, hbyte (k := 3) rfl, hbyte (k := 4) rfl, hbyte (k := 5) rfl,
      hbyte (k := 6) rfl, hbyte (k := 7) rfl, hbyte (k := 8) rfl, le64_byteOf]
    exact if_pos hin
  | storeLocal x | loadLocal x | jump x | jumpIfZero x =>
    rw [hopcode rfl, hbyte (k := 1) rfl]
    exact if_pos hin
  | halt | mul | rem | lessThan | increment =>
    rw [hopcode rfl]
    rfl

end Sys2Proof

namespace Sys2Proof.Machine

open Sys2Proof

/-- The fetch half of a step, for every instruction (40_decoder.md R58, R62). -/
theorem stepsAs_encode (i : Instr) : StepsAs (encode i) i := by
  rintro s ⟨hr, hbytes⟩
  have hd := decode_of_memRead_encode hbytes
  rcases step_ready hr with ⟨e, he, -⟩ | ⟨j, next, hj, hs⟩
  · cases hd.symm.trans he
  · cases hd.symm.trans hj
    exact hs

/-- The fetch faults of every opcode, the length being the opcode byte and the operand bytes it announces
(30_encoding.md R47). -/
theorem fetchFaults_of_operandBytes {op : Byte} {len : Nat} (hlen : len = 1 + operandBytes op.toNat) :
    FetchFaults op len := by
  rintro s hr (hpast | ⟨hop, hcut⟩)
  · exact step_raises_of_decode_outOfBounds hr (decode_opcode_outOfBounds hpast)
  · obtain ⟨hin, -⟩ := memRead_eq_some.1 hop
    have hbyte : s.port.byteAt s.pc = op := byteAt_of_memRead (k := 0) hop rfl
    have hend : s.port.len < s.pc + 1 + operandBytes (s.port.byteAt s.pc).toNat := by
      rw [hbyte, Nat.add_assoc, ← hlen]
      exact hcut
    exact step_raises_of_decode_outOfBounds hr (decode_operand_outOfBounds hin hend)

theorem step_of_exec_halt {s t : State} (h : exec .halt s = .next t) : step t = .fault .haltedHasNoStep := by
  cases (exec_halt s).symm.trans h
  exact step_halted (halt_runState s)

/-- Settles O22: Halt's effect, that no step follows it, and the fetch half at the byte 00, an opcode without operands. -/
theorem haltStopsAndKeepsTheSnapshot : Obligations.HaltStopsAndKeepsTheSnapshot := by
  refine ⟨?_, ?_, ?_, ?_⟩
  · exact exec_halt
  · exact fun _ _ => step_of_exec_halt
  · exact stepsAs_encode .halt
  · exact fetchFaults_of_operandBytes rfl

end Sys2Proof.Machine
end

section
/-! PROOFS. Arithmetic (43_arithmetic.md): a push after a pop has room, the result and the underflow of the two operand shapes,
and Mul, LessThan and Increment. -/

namespace Sys2Proof.Machine

open Sys2Proof

/-- A pop frees an entry, so the push that follows it cannot overflow a stack within its capacity (43_arithmetic.md R77). -/
theorem afterPush_popped {s : State} {rest : List Word} (hb : s.DepthBounded) (hpop : rest.length < s.depth) (v : Word) :
    afterPush v rest s = setStack (v :: rest) s := by
  refine afterPush_room (fun hfull => ?_) v
  have hcap : s.depth ≤ rest.length := hb _ hfull
  omega

/-! ### Two operands, one result (43_arithmetic.md R71) -/

theorem finish_binaryOp_result {f : Word → Word → Except FaultKind Word} {s : State} {a b r : Word} {rest : List Word}
    (hb : s.DepthBounded) (hs : s.stack = b :: a :: rest) (hf : f a b = .ok r) :
    finish s (binaryOp f s) = .next (setStack (r :: rest) s) := by
  have hpop : rest.length < s.depth := by
    rw [State.depth, hs, List.length_cons, List.length_cons]
    omega
  simp only [finish_binaryOp, hs, hf, afterPush_popped hb hpop]

theorem finish_binaryOp_underflow (f : Word → Word → Except FaultKind Word) {s : State} (hd : s.depth < 2) :
    Raises (finish s (binaryOp f s)) .stackUnderflow s := by
  rcases binaryOp_cases f s with ⟨-, h⟩ | ⟨b, a, rest, hs, -⟩
  · exact raises_of_eq (by rw [h, finish_error])
  · simp [State.depth, hs] at hd

/-- The comparison's word is decided by the mathematical values of its operands (43_arithmetic.md R76). -/
theorem boolWord_signedLess (a b : Word) : boolWord (signedLess a b) = if a.toInt < b.toInt then 1 else 0 := by
  simp only [boolWord, signedLess, decide_eq_true_eq]

/-! ### The single operand of Increment (43_arithmetic.md R77) -/

theorem exec_increment_result {s : State} {a : Word} {rest : List Word} (hb : s.DepthBounded) (hs : s.stack = a :: rest) :
    exec .increment s = .next (setStack (wrap64 (a.toInt + 1) :: rest) s) := by
  have hpop : rest.length < s.depth := by
    rw [State.depth, hs, List.length_cons]
    omega
  simp only [exec_increment, hs, afterPush_popped hb hpop]

theorem exec_increment_underflow {s : State} (hs : s.stack = []) : Raises (exec .increment s) .stackUnderflow s :=
  raises_of_eq (by rw [exec_increment, hs])

/-! ### The obligations of the family -/

/-- Settles O25: Mul is the two-operand shape with the wrapped product, and the byte 06 its whole encoding. -/
theorem mulPushesTheWrappedProduct : Obligations.MulPushesTheWrappedProduct := by
  refine ⟨?_, ?_, ?_, ?_⟩
  · exact fun _ _ _ _ hb hs => finish_binaryOp_result hb hs rfl
  · exact fun _ => finish_binaryOp_underflow _
  · exact stepsAs_encode .mul
  · exact fetchFaults_of_operandBytes rfl

/-- Settles O27: LessThan is the two-operand shape with the signed comparison, and the byte 08 its whole encoding. -/
theorem lessThanPushesTheSignedComparison : Obligations.LessThanPushesTheSignedComparison := by
  refine ⟨?_, ?_, ?_, ?_⟩
  · intro s a b rest hb hs
    rw [← boolWord_signedLess]
    exact finish_binaryOp_result hb hs rfl
  · exact fun _ => finish_binaryOp_underflow _
  · exact stepsAs_encode .lessThan
  · exact fetchFaults_of_operandBytes rfl

/-- Settles O28: Increment pushes into the entry it has just freed, and the byte 09 is its whole encoding. -/
theorem incrementWrapsTheTop : Obligations.IncrementWrapsTheTop := by
  refine ⟨?_, ?_, ?_, ?_⟩
  · exact fun _ _ _ => exec_increment_result
  · exact fun _ => exec_increment_underflow
  · exact stepsAs_encode .increment
  · exact fetchFaults_of_operandBytes rfl

end Sys2Proof.Machine
end

section
/-! PROOFS. Faults (60_exceptions.md): when the decoder rejects an opcode, and which faults an execute stage can raise. -/

namespace Sys2Proof

/-- The decoder rejects an opcode on its byte alone (60_exceptions.md R81): each opcode below 10 has a row of the opcode map,
which answers an instruction or runs past the end. -/
theorem decode_invalidOpcode_iff {port : ProgramPort} {p : Nat} :
    decode port p = .error .invalidOpcode ↔ p < port.len ∧ 10 ≤ (port.byteAt p).toNat := by
  rw [decode_eq]
  by_cases hin : p + 1 ≤ port.len
  · have hp : p < port.len := hin
    simp only [if_pos hin, hp, true_and]
    generalize (port.byteAt p).toNat = op
    by_cases hop : 10 ≤ op
    · obtain ⟨n, rfl⟩ := Nat.exists_eq_add_of_le' hop
      simp
    · interval_cases op <;> simp [ite_eq_iff]
  · have hp : ¬ p < port.len := hin
    simp [hin, hp]

end Sys2Proof

namespace Sys2Proof.Machine

open Sys2Proof

theorem decodeFault_eq_invalidOpcode {e : DecodeError} : decodeFault e = .invalidOpcode ↔ e = .invalidOpcode := by
  cases e <;> simp [decodeFault]

theorem raises_raise_iff {s : State} {k k' : FaultKind} : Raises (.next (raise k' s)) k s ↔ k = k' := by
  simp [Raises, FaultTaken, eq_comm]

theorem faultKind_ne_none_of_raises {s t : State} {k : FaultKind} (h : Raises (.next t) k s) : t.faultKind ≠ none := by
  obtain ⟨_, ht, -, hk, -⟩ := h
  cases ht
  simp [hk]

/-- The one fault of a push is StackOverflow (60_exceptions.md R84). -/
theorem kind_of_raises_afterPush {s : State} (hn : s.faultKind = none) {v : Word} {rest : List Word} {k : FaultKind}
    (h : Raises (.next (afterPush v rest s)) k s) : k = .stackOverflow := by
  rcases afterPush_cases v rest s with hp | ⟨-, hp⟩
  · exact raises_raise_iff.1 (hp ▸ h)
  · rw [hp] at h
    exact (faultKind_ne_none_of_raises h hn).elim

/-- The one fault of a repositioning is OutOfBounds (60_exceptions.md R82 d). -/
theorem kind_of_raises_afterPosition {s : State} (hn : s.faultKind = none) {p : Nat} {rest : List Word} {k : FaultKind}
    (h : Raises (.next (afterPosition p rest s)) k s) : k = .outOfBounds := by
  rcases afterPosition_cases p rest s with hp | ⟨-, hp⟩
  · exact raises_raise_iff.1 (hp ▸ h)
  · rw [hp] at h
    exact (faultKind_ne_none_of_raises h hn).elim

/-- Every fault an execute stage can raise: never InvalidOpcode, which is the decoder's, and DivisionByZero only by Rem after
both pops (60_exceptions.md R83). -/
theorem exec_raises_cases {i : Instr} {s : State} (hn : s.faultKind = none) {k : FaultKind} (h : Raises (exec i s) k s) :
    k = .stackUnderflow ∨ k = .invalidLocalIndex ∨ k = .outOfBounds ∨ k = .stackOverflow ∨
      (k = .divisionByZero ∧ i = .rem ∧ ∃ a rest, s.stack = 0 :: a :: rest) := by
  cases i with
  | halt => exact (faultKind_ne_none_of_raises h hn).elim
  | pushConst v =>
    rw [exec_pushConst] at h
    simp [kind_of_raises_afterPush hn h]
  | storeLocal idx =>
    rw [exec_storeLocal] at h
    split at h
    · split at h
      · simp [raises_raise_iff.1 h]
      · exact (faultKind_ne_none_of_raises h hn).elim
    · simp [raises_raise_iff.1 h]
  | loadLocal idx =>
    rw [exec_loadLocal] at h
    split at h
    · simp [kind_of_raises_afterPush hn h]
    · simp [raises_raise_iff.1 h]
  | jump tgt =>
    rw [exec_jump] at h
    simp [kind_of_raises_afterPosition hn h]
  | jumpIfZero tgt =>
    rw [exec_jumpIfZero] at h
    split at h
    · simp [raises_raise_iff.1 h]
    · split at h
      · simp [kind_of_raises_afterPosition hn h]
      · exact (faultKind_ne_none_of_raises h hn).elim
  | rem =>
    rw [exec_rem] at h
    split at h
    next b a rest hs =>
      split at h
      next hb =>
        subst hb
        simp [raises_raise_iff.1 h, hs]
      next => simp [kind_of_raises_afterPush hn h]
    next => simp [raises_raise_iff.1 h]
  | mul | lessThan =>
    simp only [exec_mul, exec_lessThan] at h
    split at h
    · simp [kind_of_raises_afterPush hn h]
    · simp [raises_raise_iff.1 h]
  | increment =>
    rw [exec_increment] at h
    split at h
    · simp [raises_raise_iff.1 h]
    · simp [kind_of_raises_afterPush hn h]

theorem exec_rem_divisionByZero {s : State} {a : Word} {rest : List Word} (hs : s.stack = 0 :: a :: rest) :
    Raises (exec .rem s) .divisionByZero s :=
  raises_of_eq (by rw [exec_rem, hs]; rfl)

/-! ### The obligations of the family -/

/-- Settles O39: the execute stage never raises it, so the step does exactly when the decoder does. -/
theorem invalidOpcodeCause : Obligations.InvalidOpcodeCause := by
  intro s hr hn
  refine Iff.trans ?_ (decode_invalidOpcode_iff (port := s.port))
  rcases step_ready hr with ⟨e, hd, hs⟩ | ⟨i, next, hd, hs⟩
  · rw [hs, hd, raises_raise_iff, eq_comm, decodeFault_eq_invalidOpcode, Except.error.injEq]
  · have hexec : ¬ Raises (exec i (setPc next s)) .invalidOpcode s := fun h => by
      simpa using exec_raises_cases (s := setPc next s) hn h
    simpa only [hs, hd, reduceCtorEq, iff_false] using hexec

/-- Settles O40: Rem's fault is the only DivisionByZero among the faults of an execute stage. -/
theorem divisionByZeroCause : Obligations.DivisionByZeroCause := by
  intro i s hn
  constructor
  · intro h
    simpa using exec_raises_cases hn h
  · rintro ⟨rfl, a, rest, hs⟩
    exact exec_rem_divisionByZero hs

end Sys2Proof.Machine
end

section
/-! PROOFS. Execution (40_decoder.md R58): every execute stage said once, as the fault its ranks of the priority table select
(60_exceptions.md R87) or the effect the stack-effect table gives it (10_state.md R18). -/

namespace Sys2Proof.Machine

open Sys2Proof

/-- The position a taken jump names, `none` where no jump is taken (42_control.md R68, R69). -/
def takenTarget (i : Instr) (s : State) : Option Nat :=
  match i with
  | .jump tgt => some tgt.toNat
  | .jumpIfZero tgt => if s.stack.head? = some 0 then some tgt.toNat else none
  | _ => none

/-- The ranks 4 to 8 of the fault priority table, read off the decoded instruction (60_exceptions.md R87). Where no jump is
taken, rank 7 tests position 0, which is never past the end. -/
def execFault (i : Instr) (s : State) : Option FaultKind :=
  if i.wellFormed = false then some .invalidLocalIndex
  else if s.depth < popsOf (opcodeOf i) then some .stackUnderflow
  else if i = .rem ∧ s.stack.head? = some 0 then some .divisionByZero
  else if s.progLen < (takenTarget i s).getD 0 then some .outOfBounds
  else if pushesOf (opcodeOf i) = 1 ∧ s.params.stackDepth = some (s.depth - popsOf (opcodeOf i)) then some .stackOverflow
  else none

/-- The entries an instruction pushes onto what its pops leave: the right operand is the entry on top, the left one the entry
below it (10_state.md R18; 43_arithmetic.md R71). Where an operand is missing the instruction faults, and the 0 in its place
is never used. -/
def pushedBy (i : Instr) (s : State) : List Word :=
  match i with
  | .pushConst v => [v]
  | .loadLocal idx => [s.locals[idx.toNat]?.getD 0]
  | .mul => [wrap64 ((s.stack.getD 1 0).toInt * (s.stack.getD 0 0).toInt)]
  | .rem => [trem (s.stack.getD 1 0) (s.stack.getD 0 0)]
  | .lessThan => [boolWord (signedLess (s.stack.getD 1 0) (s.stack.getD 0 0))]
  | .increment => [wrap64 ((s.stack.getD 0 0).toInt + 1)]
  | .halt | .storeLocal _ | .jump _ | .jumpIfZero _ => []

/-- The register file an instruction leaves: only StoreLocal writes it (10_state.md R16). -/
def localsAfter (i : Instr) (s : State) : Locals :=
  match i with
  | .storeLocal idx => s.locals.setIfInBounds idx.toNat (s.stack.getD 0 0)
  | _ => s.locals

/-- The whole effect of an instruction that does not fault. -/
def effectOf (i : Instr) (s : State) : State :=
  { s with
    pc := (takenTarget i s).getD s.pc
    stack := pushedBy i s ++ s.stack.drop (popsOf (opcodeOf i))
    locals := localsAfter i s
    runState := if i = .halt then .halted else s.runState }


/-! ### The ranks, instruction by instruction -/

theorem execFault_halt (s : State) : execFault .halt s = none := rfl

theorem execFault_pushConst (v : Word) (s : State) :
    execFault (.pushConst v) s = if s.params.stackDepth = some s.depth then some .stackOverflow else none := by
  simp [execFault, Instr.wellFormed, opcodeOf, popsOf, pushesOf, takenTarget]

theorem execFault_storeLocal (idx : Byte) (s : State) :
    execFault (.storeLocal idx) s =
      if nLocals ≤ idx.toNat then some .invalidLocalIndex else if s.depth < 1 then some .stackUnderflow else none := by
  simp [execFault, Instr.wellFormed, opcodeOf, popsOf, pushesOf, takenTarget]

theorem execFault_loadLocal (idx : Byte) (s : State) :
    execFault (.loadLocal idx) s =
      if nLocals ≤ idx.toNat then some .invalidLocalIndex
      else if s.params.stackDepth = some s.depth then some .stackOverflow else none := by
  simp [execFault, Instr.wellFormed, opcodeOf, popsOf, pushesOf, takenTarget]

theorem execFault_jump (tgt : Byte) (s : State) :
    execFault (.jump tgt) s = if s.progLen < tgt.toNat then some .outOfBounds else none := by
  simp [execFault, Instr.wellFormed, opcodeOf, popsOf, pushesOf, takenTarget]

theorem execFault_jumpIfZero (tgt : Byte) (s : State) :
    execFault (.jumpIfZero tgt) s =
      if s.depth < 1 then some .stackUnderflow
      else if s.stack.head? = some 0 ∧ s.progLen < tgt.toNat then some .outOfBounds else none := by
  by_cases hz : s.stack.head? = some 0#64 <;>
     simp [execFault, Instr.wellFormed, opcodeOf, popsOf, pushesOf, takenTarget, hz]

theorem execFault_mul (s : State) :
    execFault .mul s =
      if s.depth < 2 then some .stackUnderflow
      else if s.params.stackDepth = some (s.depth - 2) then some .stackOverflow else none := by
  simp [execFault, Instr.wellFormed, opcodeOf, popsOf, pushesOf, takenTarget]

theorem execFault_rem (s : State) :
    execFault .rem s =
      if s.depth < 2 then some .stackUnderflow
      else if s.stack.head? = some 0 then some .divisionByZero
      else if s.params.stackDepth = some (s.depth - 2) then some .stackOverflow else none := by
  simp [execFault, Instr.wellFormed, opcodeOf, popsOf, pushesOf, takenTarget]

theorem execFault_lessThan (s : State) : execFault .lessThan s = execFault .mul s := by
  simp [execFault, Instr.wellFormed, opcodeOf, popsOf, pushesOf, takenTarget]

theorem execFault_increment (s : State) :
    execFault .increment s =
      if s.depth < 1 then some .stackUnderflow
      else if s.params.stackDepth = some (s.depth - 1) then some .stackOverflow else none := by
  simp [execFault, Instr.wellFormed, opcodeOf, popsOf, pushesOf, takenTarget]

/-! ### The effects, instruction by instruction -/

theorem effectOf_pushConst (v : Word) (s : State) : effectOf (.pushConst v) s = setStack (v :: s.stack) s := rfl

theorem effectOf_storeLocal {idx : Byte} (h : idx.toNat < nLocals) {v : Word} {rest : List Word} {s : State}
    (hs : s.stack = v :: rest) : effectOf (.storeLocal idx) s = setLocal ⟨idx.toNat, h⟩ v (setStack rest s) := by
  have hlocals : localsAfter (.storeLocal idx) s = s.locals.set idx.toNat v := by
    ext j
    simp [localsAfter, hs, Vector.getElem_set, Vector.getElem_setIfInBounds]
  simp only [effectOf, hlocals, hs]; rfl

theorem effectOf_loadLocal {idx : Byte} (h : idx.toNat < nLocals) (s : State) :
    effectOf (.loadLocal idx) s = setStack (getLocal ⟨idx.toNat, h⟩ s :: s.stack) s := by
  simp only [effectOf, pushedBy, Vector.getElem?_eq_getElem h]; rfl

theorem effectOf_jump (tgt : Byte) (s : State) : effectOf (.jump tgt) s = setPc tgt.toNat s := rfl

theorem effectOf_jumpIfZero_taken (tgt : Byte) {rest : List Word} {s : State} (hs : s.stack = 0 :: rest) :
    effectOf (.jumpIfZero tgt) s = setPc tgt.toNat (setStack rest s) := by
  simp only [effectOf, takenTarget, hs]; rfl

theorem effectOf_jumpIfZero_passed (tgt : Byte) {v : Word} {rest : List Word} {s : State} (hs : s.stack = v :: rest)
    (hv : v ≠ 0) : effectOf (.jumpIfZero tgt) s = setStack rest s := by
  have hhead : takenTarget (.jumpIfZero tgt) s = none := by
    simpa [takenTarget, hs] using hv
  simp only [effectOf, hhead, hs]; rfl

theorem effectOf_mul {a b : Word} {rest : List Word} {s : State} (hs : s.stack = b :: a :: rest) :
    effectOf .mul s = setStack (wrap64 (a.toInt * b.toInt) :: rest) s := by
  simp only [effectOf, pushedBy, hs]; rfl

theorem effectOf_rem {a b : Word} {rest : List Word} {s : State} (hs : s.stack = b :: a :: rest) :
    effectOf .rem s = setStack (trem a b :: rest) s := by
  simp only [effectOf, pushedBy, hs]; rfl

theorem effectOf_lessThan {a b : Word} {rest : List Word} {s : State} (hs : s.stack = b :: a :: rest) :
    effectOf .lessThan s = setStack (boolWord (signedLess a b) :: rest) s := by
  simp only [effectOf, pushedBy, hs]; rfl

theorem effectOf_increment {a : Word} {rest : List Word} {s : State} (hs : s.stack = a :: rest) :
    effectOf .increment s = setStack (wrap64 (a.toInt + 1) :: rest) s := by
  simp only [effectOf, pushedBy, hs]; rfl

/-! ### The equation of an execute stage -/

theorem afterPush_eq {v : Word} {rest : List Word} {s e : State} (he : e = setStack (v :: rest) s) :
    afterPush v rest s =
      (if s.params.stackDepth = some rest.length then some FaultKind.stackOverflow else none).elim e (raise · s) := by
  subst he
  unfold afterPush
  split_ifs <;> rfl

theorem afterPosition_eq {p : Nat} {rest : List Word} {s e : State} (he : e = setPc p (setStack rest s)) :
    afterPosition p rest s = (if s.progLen < p then some FaultKind.outOfBounds else none).elim e (raise · s) := by
  subst he
  unfold afterPosition
  split_ifs <;> rfl

/-- Every execute stage: the fault its ranks select, or else its whole effect (60_exceptions.md R87). -/
theorem exec_eq (i : Instr) (s : State) :
    exec i s = .next ((execFault i s).elim (effectOf i s) (raise · s)) := by
  cases i with
  | halt => exact exec_halt s
  | pushConst v => rw [exec_pushConst, execFault_pushConst, afterPush_eq (effectOf_pushConst v s)]; rfl
  | storeLocal idx =>
    rw [exec_storeLocal, execFault_storeLocal]
    by_cases hi : idx.toNat < nLocals
    · rw [dif_pos hi, if_neg (Nat.not_le.2 hi)]
      rcases hs : s.stack with _ | ⟨v, rest⟩
      · simp [State.depth, hs]
      · simp [State.depth, hs, effectOf_storeLocal hi hs]
    · rw [dif_neg hi, if_pos (Nat.not_lt.1 hi)]; rfl
  | loadLocal idx =>
    rw [exec_loadLocal, execFault_loadLocal]
    by_cases hi : idx.toNat < nLocals
    · rw [dif_pos hi, if_neg (Nat.not_le.2 hi), afterPush_eq (effectOf_loadLocal hi s)]; rfl
    · rw [dif_neg hi, if_pos (Nat.not_lt.1 hi)]; rfl
  | jump tgt => rw [exec_jump, execFault_jump, afterPosition_eq (effectOf_jump tgt s)]
  | jumpIfZero tgt =>
    rw [exec_jumpIfZero, execFault_jumpIfZero]
    rcases hs : s.stack with _ | ⟨v, rest⟩
    · simp [State.depth, hs]
    · by_cases hv : v = 0#64
      · subst hv
        simp [State.depth, hs, afterPosition_eq (effectOf_jumpIfZero_taken tgt hs)]
      · simp [State.depth, hs, hv, effectOf_jumpIfZero_passed tgt hs hv]
  | mul =>
    rw [exec_mul, execFault_mul]
    rcases hs : s.stack with _ | ⟨b, _ | ⟨a, rest⟩⟩
    · simp [State.depth, hs]
    · simp [State.depth, hs]
    · simp [State.depth, hs, afterPush_eq (effectOf_mul hs)]
  | rem =>
    rw [exec_rem, execFault_rem]
    rcases hs : s.stack with _ | ⟨b, _ | ⟨a, rest⟩⟩
    · simp [State.depth, hs]
    · simp [State.depth, hs]
    · by_cases hb : b = 0#64
      · simp [State.depth, hs, hb]
      · simp [State.depth, hs, hb, afterPush_eq (effectOf_rem hs)]
  | lessThan =>
    rw [exec_lessThan, execFault_lessThan, execFault_mul]
    rcases hs : s.stack with _ | ⟨b, _ | ⟨a, rest⟩⟩
    · simp [State.depth, hs]
    · simp [State.depth, hs]
    · simp [State.depth, hs, afterPush_eq (effectOf_lessThan hs)]
  | increment =>
    rw [exec_increment, execFault_increment]
    rcases hs : s.stack with _ | ⟨a, rest⟩
    · simp [State.depth, hs]
    · simp [State.depth, hs, afterPush_eq (effectOf_increment hs)]

/-! ### What an execute stage can do -/

@[simp] theorem effectOf_faultKind (i : Instr) (s : State) : (effectOf i s).faultKind = s.faultKind := rfl

@[simp] theorem pushedBy_length (i : Instr) (s : State) : (pushedBy i s).length = pushesOf (opcodeOf i) := by
  cases i <;> rfl

theorem effectOf_depth (i : Instr) (s : State) :
    (effectOf i s).depth = pushesOf (opcodeOf i) + (s.depth - popsOf (opcodeOf i)) := by
  simp [State.depth, effectOf]

/-- The entries below the operands stay where they are (10_state.md R18). -/
theorem effectOf_stack_drop (i : Instr) (s : State) :
    (effectOf i s).stack.drop (pushesOf (opcodeOf i)) = s.stack.drop (popsOf (opcodeOf i)) :=
  List.drop_left' (pushedBy_length i s)

theorem exec_of_fault {i : Instr} {s : State} {k : FaultKind} (h : execFault i s = some k) :
    exec i s = .next (raise k s) := by rw [exec_eq, h]; rfl

theorem exec_of_noFault {i : Instr} {s : State} (h : execFault i s = none) : exec i s = .next (effectOf i s) := by
  rw [exec_eq, h]; rfl

/-- The next state of an execute stage is the fault taken or the whole effect. -/
theorem exec_next_cases {i : Instr} {s t : State} (h : exec i s = .next t) :
    (∃ k, execFault i s = some k ∧ t = raise k s) ∨ (execFault i s = none ∧ t = effectOf i s) := by
  cases hf : execFault i s with
  | some k => exact .inl ⟨k, rfl, Host.Outcome.next.inj (h.symm.trans (exec_of_fault hf))⟩
  | none => exact .inr ⟨rfl, Host.Outcome.next.inj (h.symm.trans (exec_of_noFault hf))⟩

/-- A next state that is not Faulted is the whole effect. -/
theorem eq_effectOf_of_not_faulted {i : Instr} {s t : State} (h : exec i s = .next t) (ht : t.runState ≠ .faulted) :
    execFault i s = none ∧ t = effectOf i s := by
  rcases exec_next_cases h with ⟨k, -, rfl⟩ | heffect
  · exact (ht (raise_runState k s)).elim
  · exact heffect

/-- An execute stage reads the run's arguments and never writes them (20_memory.md R29). -/
theorem exec_keeps_program {i : Instr} {s t : State} (h : exec i s = .next t) :
    t.prog = s.prog ∧ t.progLen = s.progLen ∧ t.params = s.params := by
  rcases exec_next_cases h with ⟨k, -, rfl⟩ | ⟨-, rfl⟩ <;> exact ⟨rfl, rfl, rfl⟩

/-- From a state that shows no fault, an execute stage raises exactly the fault its ranks select. -/
theorem raises_exec_iff {i : Instr} {s : State} (hn : s.faultKind = none) {k : FaultKind} :
    Raises (exec i s) k s ↔ execFault i s = some k := by
  cases hf : execFault i s with
  | some k' => rw [exec_of_fault hf, raises_raise_iff, Option.some.injEq, eq_comm]
  | none =>
    rw [exec_of_noFault hf]
    exact ⟨fun h => (faultKind_ne_none_of_raises h hn).elim, fun h => by cases h⟩

/-! ### What the ranks exclude -/

/-- No rank applies: the operands are legal and there, a target lies inside the Program, and a push has room. -/
theorem execFault_eq_none {i : Instr} {s : State} (h : execFault i s = none) :
    i.wellFormed = true ∧ popsOf (opcodeOf i) ≤ s.depth ∧ (takenTarget i s).getD 0 ≤ s.progLen ∧
      (pushesOf (opcodeOf i) = 1 → s.params.stackDepth ≠ some (s.depth - popsOf (opcodeOf i))) := by
  unfold execFault at h
  split_ifs at h with hwf hpops hzero htarget hroom
  exact ⟨by simpa using hwf, Nat.not_lt.1 hpops, Nat.not_lt.1 htarget, fun h1 h2 => hroom ⟨h1, h2⟩⟩

/-- The opcode is the decoder's to reject, never the execute stage's (60_exceptions.md R81). -/
theorem execFault_ne_invalidOpcode (i : Instr) (s : State) : execFault i s ≠ some .invalidOpcode := by
  unfold execFault
  split_ifs <;> simp

theorem execFault_ne_invalidLocalIndex {i : Instr} (hwf : i.wellFormed = true) (s : State) :
    execFault i s ≠ some .invalidLocalIndex := by
  simp only [execFault, hwf, Bool.true_eq_false, if_false]
  split_ifs <;> simp

theorem execFault_ne_outOfBounds {i : Instr} {s : State} (htarget : (takenTarget i s).getD 0 ≤ s.progLen) :
    execFault i s ≠ some .outOfBounds := by
  simp only [execFault, if_neg (Nat.not_lt.2 htarget)]
  split_ifs <;> simp

/-- StackOverflow needs a finite capacity (60_exceptions.md R84). -/
theorem execFault_ne_stackOverflow (i : Instr) {s : State} (hunbounded : s.params.stackDepth = none) :
    execFault i s ≠ some .stackOverflow := by
  simp only [execFault, hunbounded, reduceCtorEq, and_false, if_false]
  split_ifs <;> simp

end Sys2Proof.Machine
end

section
/-! PROOFS. The encoding and the linear decoding of whole Programs (30_encoding.md R52; 70_reset_and_hazards.md R103), and the
bytes of a supplied Program (20_memory.md §8). -/

namespace Sys2Proof

theorem encode_length (i : Instr) : (encode i).length = i.length := by cases i <;> rfl

/-! ### The bytes that decode to an instruction -/

/-- The opcode byte is the number of its row of the opcode map, and the operand bytes are read back as they stand. -/
theorem encode_of_decode {port : ProgramPort} {p next : Nat} {i : Instr} (h : decode port p = .ok (i, next)) :
    encode i = (List.range i.length).map fun k => port.byteAt (p + k) := by
  obtain ⟨-, -, -, hcases⟩ := decode_ok_cases h
  have hopcode {n : Nat} (hn : n < 2 ^ 8) (ho : (port.byteAt p).toNat = n) : port.byteAt p = BitVec.ofNat 8 n :=
    BitVec.eq_of_toNat_eq (by rw [ho, BitVec.toNat_ofNat, Nat.mod_eq_of_lt hn])
  rcases hcases with ⟨ho, rfl⟩ | ⟨ho, rfl⟩ | ⟨ho, rfl⟩ | ⟨ho, rfl⟩ | ⟨ho, rfl⟩ | ⟨ho, rfl⟩ | ⟨ho, rfl⟩ | ⟨ho, rfl⟩ |
    ⟨ho, rfl⟩ | ⟨ho, rfl⟩
  case' inr.inl => rw [encode_pushConst_le64]
  all_goals simp [encode, Instr.length, List.range_succ, hopcode (by decide) ho]

theorem memRead_encode_of_decode {port : ProgramPort} {p next : Nat} {i : Instr} (h : decode port p = .ok (i, next)) :
    memRead port p (encode i).length = some (encode i) := by
  obtain ⟨-, hin, rfl, -⟩ := decode_ok_cases h
  rw [encode_length]
  exact memRead_eq_some.2 ⟨hin, encode_of_decode h⟩

/-- An instruction decodes exactly where its encoding stands. -/
theorem decoded_iff_encode_read {port : ProgramPort} {p : Nat} {i : Instr} :
    (∃ next, decode port p = .ok (i, next)) ↔ memRead port p (encode i).length = some (encode i) :=
  ⟨fun ⟨_, h⟩ => memRead_encode_of_decode h, fun h => ⟨_, decode_of_memRead_encode h⟩⟩

/-! ### Linear decoding of an assembled Program -/

theorem memRead_portOfBytes_append (before bytes after : List Byte) :
    memRead (portOfBytes (before ++ (bytes ++ after))) before.length bytes.length = some bytes := by
  rw [memRead_eq_some]
  refine ⟨by simp [portOfBytes], List.ext_getElem (by simp) fun k hk _ => ?_⟩
  have hbyte : (before ++ (bytes ++ after))[before.length + k]? = some bytes[k] := by
    rw [List.getElem?_append_right (by omega), Nat.add_sub_cancel_left, List.getElem?_append_left hk,
      List.getElem?_eq_getElem hk]
  simp [portOfBytes, List.getD_eq_getElem?_getD, hbyte]

/-- From the start of the assembled instructions, whatever bytes stand before them, with fuel for every byte. -/
theorem linearDecode_encodeProgram (is : List Instr) (before : List Byte) (fuel : Nat)
    (hfuel : (encodeProgram is).length ≤ fuel) :
    (Machine.linearDecode (portOfBytes (before ++ encodeProgram is)) fuel before.length).map (fun l => l.map (·.2)) =
      some is := by
  induction is generalizing before fuel with
  | nil => cases fuel <;> simp [Machine.linearDecode, portOfBytes, encodeProgram]
  | cons i is ih =>
    have hsplit : encodeProgram (i :: is) = encode i ++ encodeProgram is := rfl
    have hpos : 0 < (encode i).length := by rw [encode_length, Machine.length_eq_operandBytes]; omega
    rw [hsplit, List.length_append] at hfuel
    obtain ⟨fuel, rfl⟩ : ∃ n, fuel = n + 1 := ⟨fuel - 1, by omega⟩
    have hmore : before.length ≠ (portOfBytes (before ++ (encode i ++ encodeProgram is))).len := by
      simp only [portOfBytes, List.length_append]
      omega
    have hdecode := decode_of_memRead_encode (memRead_portOfBytes_append before (encode i) (encodeProgram is))
    have hrest := ih (before ++ encode i) fuel (by omega)
    rw [List.append_assoc, List.length_append] at hrest
    rw [hsplit, Machine.linearDecode, if_neg hmore, hdecode]
    simpa [Function.comp_def] using congrArg (Option.map (i :: ·)) hrest

end Sys2Proof

namespace Sys2Proof.Machine

open Sys2Proof

/-! ### The bytes of a supplied Program -/

theorem Memory.read_load_below {a start : Nat} (h : a < start) (m : Memory) (bs : List Byte) :
    (m.load start bs).read a = m.read a := by
  induction bs generalizing m start with
  | nil => rfl
  | cons b bs ih => exact (ih (by omega) _).trans (Memory.read_write_other (by omega) m b)

/-- Each byte loaded is read back: the loads after it write above it. -/
theorem Memory.read_load {m : Memory} (hm : m.wf) (start : Nat) (bs : List Byte) {k : Nat} (hk : k < bs.length) :
    (m.load start bs).read (start + k) = bs[k] := by
  induction bs generalizing m start k with
  | nil => cases hk
  | cons b bs ih =>
    cases k with
    | zero => exact (Memory.read_load_below (Nat.lt_succ_self start) _ bs).trans (Memory.read_write_same hm start b)
    | succ k =>
      have hrest := ih (Memory.write_wf hm start b) (start + 1) (Nat.lt_of_succ_lt_succ hk)
      rw [Nat.add_right_comm, Nat.add_assoc] at hrest
      exact hrest

/-! ### The obligations of the family -/

/-- Settles O2: the opcode byte selects the row, the operand bytes give the operand back. -/
theorem decodeOfEncodeIsTheInstruction : Obligations.DecodeOfEncodeIsTheInstruction :=
  fun _ _ _ => decode_of_memRead_encode

/-- Settles O4: by induction over the instructions, from address 0 with nothing before them. -/
theorem assembledProgramDecodesBack : Obligations.AssembledProgramDecodesBack :=
  fun is => linearDecode_encodeProgram is [] _ le_rfl

/-- Settles O3: row by row of the opcode map. -/
theorem decodedBytesAreTheEncoding : Obligations.DecodedBytesAreTheEncoding := by
  intro port p i next h
  obtain ⟨-, -, hnext, -⟩ := decode_ok_cases h
  exact ⟨encode_length i ▸ hnext, memRead_encode_of_decode h⟩

/-- Settles O11: every byte of the supplied string is read back from the address it was loaded to. -/
theorem suppliedProgramIsReadBack : Obligations.SuppliedProgramIsReadBack := by
  intro bytes s
  refine ⟨memRead_eq_some.2 ⟨by simp [supplyProgram], List.ext_getElem (by simp) fun k hk _ => ?_⟩, rfl⟩
  have hread := Memory.read_load (m := []) Memory.reset_wf 0 bytes hk
  simpa [supplyProgram] using hread.symm

/-- Settles O1: each byte string is evaluated. -/
theorem knownBytesDecodeAsTheMapSays : Obligations.KnownBytesDecodeAsTheMapSays := by
  unfold Obligations.KnownBytesDecodeAsTheMapSays
  and_intros <;> rfl

end Sys2Proof.Machine
end

section
/-! PROOFS. The step (40_decoder.md §2): what one step does to the cursor, the status and the run's arguments, and what it never
reads. -/

namespace Sys2Proof.Machine

open Sys2Proof

/-! ### The step, with its execute stage said once -/

theorem effectOf_setPc_pc (i : Instr) (p : Nat) (s : State) :
    (effectOf i (setPc p s)).pc = (takenTarget i s).getD p := rfl

/-- The next state of a step: the fault of the decoder, the fault of the execute stage, or the decoded instruction's whole
effect with the cursor moved past it (40_decoder.md R59, R62). -/
theorem step_next_cases {s t : State} (h : step s = .next t) :
    (∃ e, decode s.port s.pc = .error e ∧ t = raise (decodeFault e) s) ∨
      ∃ i next, decode s.port s.pc = .ok (i, next) ∧
        ((∃ k, execFault i s = some k ∧ t = raise k s) ∨ (execFault i s = none ∧ t = effectOf i (setPc next s))) := by
  rcases step_ready (ready_of_step h) with ⟨e, hd, hs⟩ | ⟨i, next, hd, hs⟩
  · exact .inl ⟨e, hd, Host.Outcome.next.inj (h.symm.trans hs)⟩
  · exact .inr ⟨i, next, hd, exec_next_cases (hs.symm.trans h)⟩

/-- The cursor moves to a position inside the Program: the end of the instruction, or a target that passed rank 7. -/
theorem takenTarget_getD_le {i : Instr} {s : State} (hf : execFault i s = none) {next : Nat} (hnext : next ≤ s.progLen) :
    (takenTarget i s).getD next ≤ s.progLen := by
  obtain ⟨-, -, htarget, -⟩ := execFault_eq_none hf
  cases ht : takenTarget i s with
  | none => exact hnext
  | some p => simpa [ht] using htarget

theorem effectOf_runState_ne_faulted {i : Instr} {s : State} (hr : s.runState = .running) :
    (effectOf i s).runState ≠ .faulted := by
  simp only [effectOf, hr]
  split_ifs <;> simp

/-! ### What a step keeps -/

theorem step_keeps_program {s t : State} (h : step s = .next t) :
    t.prog = s.prog ∧ t.progLen = s.progLen ∧ t.params = s.params := by
  rcases step_next_cases h with ⟨e, -, rfl⟩ | ⟨i, next, -, ⟨k, -, rfl⟩ | ⟨-, rfl⟩⟩ <;> exact ⟨rfl, rfl, rfl⟩

theorem step_keeps_port {s t : State} (h : step s = .next t) : t.port = s.port := by
  obtain ⟨hprog, hlen, -⟩ := step_keeps_program h
  simp only [State.port, hprog, hlen]

/-- From a state that shows no fault, a step shows one exactly in Faulted. -/
theorem step_faulted_iff {s t : State} (hn : s.faultKind = none) (h : step s = .next t) :
    t.runState = .faulted ↔ t.faultKind ≠ none := by
  obtain ⟨hr, -⟩ := ready_of_step h
  rcases step_next_cases h with ⟨e, -, rfl⟩ | ⟨i, next, -, ⟨k, -, rfl⟩ | ⟨-, rfl⟩⟩
  · simp
  · simp
  · simp [hn, effectOf_runState_ne_faulted (i := i) (s := setPc next s) hr]

/-- A step from a Running, admitted state runs the instruction decoded at the cursor. -/
theorem step_of_decode_ok {s : State} {i : Instr} {next : Nat} (hr : s.Ready)
    (hd : decode s.port s.pc = .ok (i, next)) : step s = exec i (setPc next s) := by
  rcases step_ready hr with ⟨e, he, -⟩ | ⟨j, n, hj, hs⟩
  · cases hd.symm.trans he
  · cases hd.symm.trans hj
    exact hs

theorem step_of_decode_error {s : State} {e : DecodeError} (hr : s.Ready) (hd : decode s.port s.pc = .error e) :
    step s = .next (raise (decodeFault e) s) := by
  rcases step_ready hr with ⟨e', he, hs⟩ | ⟨j, n, hj, -⟩
  · cases hd.symm.trans he
    exact hs
  · cases hd.symm.trans hj

theorem step_total {s : State} (hr : s.Ready) : ∃ t, step s = .next t := by
  rcases step_ready hr with ⟨e, -, hs⟩ | ⟨i, next, -, hs⟩
  · exact ⟨_, hs⟩
  · exact ⟨_, hs.trans (exec_eq i _)⟩

/-- A Program past `MAX_PROG_LEN` is refused (00_scope.md R7). -/
theorem step_tooLong {s : State} (hr : s.runState = .running) (hlong : s.params.maxProgLen < s.progLen) :
    step s = .refused .programTooLong := by simp [step, hr, hlong]

/-! ### What an execute stage does not read -/

/-- Another Program changes an execute stage in nothing but the Program itself. -/
theorem exec_withProg {i : Instr} {s t : State} (h : exec i s = .next t) (m : Memory) :
    exec i { s with prog := m } = .next { t with prog := m } := by
  rcases exec_next_cases h with ⟨k, hf, rfl⟩ | ⟨hf, rfl⟩
  · exact exec_of_fault (s := { s with prog := m }) hf
  · exact exec_of_noFault (s := { s with prog := m }) hf

/-! ### The obligations of the family -/

/-- Settles O12: the step's cases, the decoder's answer being one. -/
theorem stepRunsTheDecodedInstruction : Obligations.StepRunsTheDecodedInstruction :=
  ⟨fun _ _ _ => step_of_decode_ok, fun _ _ => step_of_decode_error⟩

/-- Settles O13: a Ready step answers whatever is decoded; the other states are the step's own tests. -/
theorem stepIsTotalExactlyWhileRunning : Obligations.StepIsTotalExactlyWhileRunning :=
  fun _ => ⟨step_total, step_halted, step_faulted, step_tooLong⟩

/-- Settles O14: of the step's cases only the whole effect of Halt ends in Halted. -/
theorem runStateMovesOnlyByHaltOrFault : Obligations.RunStateMovesOnlyByHaltOrFault := by
  intro s t hn h
  obtain ⟨hr, -⟩ := ready_of_step h
  refine ⟨hr, ?_, step_faulted_iff hn h⟩
  rcases step_next_cases h with ⟨e, hd, rfl⟩ | ⟨i, next, hd, ⟨k, hf, rfl⟩ | ⟨-, rfl⟩⟩
  · simp [hd]
  · have hi : i ≠ .halt := fun hi => by cases hf.symm.trans (hi ▸ execFault_halt s)
    simp [hd, hi]
  · simp [hd, effectOf, hr]

/-- Settles O15: a step that does not fault is the decoded instruction's whole effect. -/
theorem cursorAdvancesOrJumps : Obligations.CursorAdvancesOrJumps := by
  intro s t h ht
  rcases step_next_cases h with ⟨e, -, rfl⟩ | ⟨i, next, hd, ⟨k, -, rfl⟩ | ⟨hf, rfl⟩⟩
  · exact (ht rfl).elim
  · exact (ht rfl).elim
  · obtain ⟨-, hin, hnext, -⟩ := decode_ok_cases hd
    refine ⟨i, next, hd, hnext, takenTarget_getD_le hf hin, ?_⟩
    rw [effectOf_setPc_pc]
    cases i with
    | jumpIfZero tgt => by_cases hz : s.stack.head? = some 0 <;> simp only [takenTarget, hz, if_true, if_false] <;> rfl
    | _ => rfl

/-- Settles O16: neither the ranks nor the effect on stack, registers and status read the cursor. -/
theorem cursorIsNeverData : Obligations.CursorIsNeverData := by
  intro i s t q h
  rcases exec_next_cases h with ⟨k, hf, rfl⟩ | ⟨hf, rfl⟩
  · exact ⟨_, exec_of_fault (s := setPc q s) hf, rfl, rfl, rfl, rfl⟩
  · exact ⟨_, exec_of_noFault (s := setPc q s) hf, rfl, rfl, rfl, rfl⟩

/-- Settles O17: the same data reads the same at every address. -/
theorem programNeverChanges : Obligations.ProgramNeverChanges := by
  constructor
  · intro s t h
    obtain ⟨hprog, hrest⟩ := step_keeps_program h
    exact ⟨fun a => by rw [hprog], hprog, hrest⟩
  · intro i s t h
    obtain ⟨hprog, hrest⟩ := exec_keeps_program h
    exact ⟨fun a => by rw [hprog], hprog, hrest⟩

/-- Settles O18: the replaced Program decodes alike at the cursor, and nothing after the decoding reads it. -/
theorem unfetchedBytesAreNeverExamined : Obligations.UnfetchedBytesAreNeverExamined := by
  constructor
  · intro s i next m hr hd hagree
    obtain ⟨t, ht⟩ := step_total hr
    obtain ⟨-, hin, -⟩ := decode_ok_cases hd
    have hd' : decode (State.port { s with prog := m }) s.pc = .ok (i, next) := decode_ok_of_agree hd hin hagree
    refine ⟨t, ht, (step_of_decode_ok (s := { s with prog := m }) hr hd').trans ?_⟩
    exact exec_withProg ((step_of_decode_ok hr hd).symm.trans ht) m
  · intro s m hr hd hbyte
    have hd' : decode (State.port { s with prog := m }) s.pc = .error .invalidOpcode := by
      obtain ⟨hin, hop⟩ := decode_invalidOpcode_iff.1 hd
      refine decode_invalidOpcode_iff.2 ⟨hin, ?_⟩
      rw [port_byteAt]
      exact hbyte ▸ hop
    exact ⟨_, step_of_decode_error hr hd, step_of_decode_error (s := { s with prog := m }) hr hd'⟩

/-- Settles O10: the two sides of the position's test, and the fetch at the end. -/
theorem repositioningAcceptsTheEnd : Obligations.RepositioningAcceptsTheEnd := by
  intro p s
  refine ⟨fun hp => ?_, fun hp => ?_, fun hr => ?_⟩
  · exact if_neg (Nat.not_lt.2 hp)
  · exact if_pos hp
  · exact step_raises_of_decode_outOfBounds (s := { s with pc := s.progLen }) hr (decode_opcode_outOfBounds le_rfl)

/-- Settles O38: the fields of a state that took a fault, and that Faulted has no step. -/
theorem raiseRecordsTheKindAndStops : Obligations.RaiseRecordsTheKindAndStops :=
  fun k s => ⟨⟨rfl, rfl, rfl, rfl, rfl⟩, step_faulted (raise_runState k s)⟩

end Sys2Proof.Machine
end

section
/-! PROOFS. The invariant of the machine (10_state.md; 20_memory.md §1): a step takes a fault or the decoded instruction's
effect, and both keep it. -/

namespace Sys2Proof.Machine

open Sys2Proof

theorem decodeFault_ne_stackOverflow (e : DecodeError) : decodeFault e ≠ .stackOverflow := by cases e <;> simp [decodeFault]

/-! ### What taking a fault and completing an instruction keep -/

/-- A fault keeps the invariant: it shows its kind in Faulted, where the cursor and the stack are not spoken of. -/
theorem raise_inv {s : State} (hinv : s.Inv) {k : FaultKind} (hk : k = .stackOverflow → s.params.stackDepth ≠ none) :
    (raise k s).Inv where
  progWf := hinv.progWf
  progWithin := hinv.progWithin
  paramsLegal := hinv.paramsLegal
  faultKindShown := by simp
  pcInside h := (h rfl).elim
  depthBounded h := (h rfl).elim
  overflowFinite h := hk (Option.some.inj h)

theorem pushesOf_le_one (op : Nat) : pushesOf op ≤ 1 := by
  unfold pushesOf
  split_ifs <;> omega

/-- A completed instruction leaves the stack within its capacity: a push had room above what the pops left (10_state.md R19). -/
theorem effectOf_depthBounded {i : Instr} {s : State} (hf : execFault i s = none) (hb : s.DepthBounded) :
    (effectOf i s).DepthBounded := by
  intro d hd
  obtain ⟨-, -, -, hroom⟩ := execFault_eq_none hf
  have hcap : s.depth ≤ d := hb d hd
  have hone := pushesOf_le_one (opcodeOf i)
  rw [effectOf_depth]
  by_cases hpush : pushesOf (opcodeOf i) = 1
  · have hfull : d ≠ s.depth - popsOf (opcodeOf i) := fun h => hroom hpush (h ▸ hd)
    omega
  · omega

/-- A completed instruction keeps the invariant of a Running state. -/
theorem effectOf_inv {i : Instr} {s : State} (hinv : s.Inv) (hr : s.runState = .running) (hf : execFault i s = none) :
    (effectOf i s).Inv := by
  have hrun : s.runState ≠ .faulted := by simp [hr]
  have hnone : s.faultKind = none := by simpa [hr] using hinv.faultKindShown
  exact {
    progWf := hinv.progWf
    progWithin := hinv.progWithin
    paramsLegal := hinv.paramsLegal
    faultKindShown := by simp [hnone, effectOf_runState_ne_faulted hr]
    pcInside := fun _ => takenTarget_getD_le hf (hinv.pcInside hrun)
    depthBounded := fun _ => effectOf_depthBounded hf (hinv.depthBounded hrun)
    overflowFinite := fun h => hinv.overflowFinite h }

theorem setPc_inv {s : State} (hinv : s.Inv) {p : Nat} (hp : p ≤ s.progLen) : (setPc p s).Inv :=
  { hinv with pcInside := fun _ => hp }

/-- Reset gives every state the invariant whose Program is in canonical form and whose parameters are legal. -/
theorem resetInput_inv {s : State} (hwf : s.prog.wf) (hwithin : s.prog.within s.progLen) (hlegal : s.params.legal = true) :
    (resetInput s).Inv where
  progWf := hwf
  progWithin := hwithin
  paramsLegal := hlegal
  faultKindShown := by simp [resetInput, State.reset]
  pcInside _ := Nat.zero_le _
  depthBounded _ d _ := Nat.zero_le d
  overflowFinite h := by cases h

/-! ### The obligations of the family -/

/-- Settles O47: by the cases of the step; the only fault the capacity matters to is the push's. -/
theorem stepKeepsTheInvariant : Obligations.StepKeepsTheInvariant := by
  intro s t hinv h
  obtain ⟨hr, -⟩ := ready_of_step h
  rcases step_next_cases h with ⟨e, -, rfl⟩ | ⟨i, next, hd, ⟨k, hf, rfl⟩ | ⟨hf, rfl⟩⟩
  · exact raise_inv hinv fun he => (decodeFault_ne_stackOverflow e he).elim
  · exact raise_inv hinv fun hk hunbounded => execFault_ne_stackOverflow i hunbounded (hk ▸ hf)
  · obtain ⟨-, hnext, -⟩ := decode_ok_cases hd
    exact effectOf_inv (setPc_inv hinv hnext) hr hf

/-- Settles O48: the reset state is what the reset input makes of it, with the empty Program. -/
theorem resetStateHasTheInvariant : Obligations.ResetStateHasTheInvariant :=
  resetInput_inv (s := State.reset) Memory.reset_wf (by simp [State.reset]) rfl

/-- Settles O49: the loaded bytes are in canonical form and inside their own length. -/
theorem everyLaunchHasTheInvariant : Obligations.EveryLaunchHasTheInvariant := by
  intro bytes s hlegal
  refine resetInput_inv (Memory.load_wf Memory.reset_wf 0 bytes) (Memory.load_within (by simp) ?_) hlegal
  simp [supplyProgram]

/-- Settles O45: with no capacity to reach, no step shows StackOverflow. -/
theorem baselineRaisesOnlyTheFiveFaults : Obligations.BaselineRaisesOnlyTheFiveFaults := by
  intro s t hunbounded hn h
  have hoverflow : t.faultKind ≠ some .stackOverflow := by
    rcases step_next_cases h with ⟨e, -, rfl⟩ | ⟨i, next, -, ⟨k, hf, rfl⟩ | ⟨-, rfl⟩⟩
    · simpa using decodeFault_ne_stackOverflow e
    · rw [raise_faultKind, ← hf]
      exact execFault_ne_stackOverflow i hunbounded
    · simp [hn]
  rcases ht : t.faultKind with _ | k
  · exact .inl rfl
  · cases k <;> simp_all

end Sys2Proof.Machine
end

section
/-! PROOFS. The static check on programs (70_reset_and_hazards.md R103): the addresses of the linear decoding are closed under
the steps of the machine, so a checked Program never misdecodes. -/

namespace Sys2Proof.Machine

open Sys2Proof

/-! ### The linear decoding -/

/-- A linear decoding that succeeds starts at its first instruction, or at the end with none left; and every instruction in it
decodes at its address and ends where the next one stands, or at the end of the Program. -/
theorem linearDecode_closed {port : ProgramPort} {fuel pos : Nat} {l : List (Nat × Instr)}
    (h : linearDecode port fuel pos = some l) :
    (pos = port.len ∨ pos ∈ l.map (·.1)) ∧
      ∀ p i, (p, i) ∈ l → ∃ next, decode port p = .ok (i, next) ∧ (next = port.len ∨ next ∈ l.map (·.1)) := by
  induction fuel generalizing pos l with
  | zero =>
    simp only [linearDecode] at h
    split_ifs at h with hend
    cases h
    exact ⟨.inl hend, by simp⟩
  | succ fuel ih =>
    simp only [linearDecode] at h
    split_ifs at h with hend
    · cases h
      exact ⟨.inl hend, by simp⟩
    · split at h
      next => cases h
      next i next hd =>
        obtain ⟨l, hl, rfl⟩ := Option.map_eq_some_iff.1 h
        obtain ⟨hstart, hclosed⟩ := ih hl
        have hlift {q : Nat} (hq : q = port.len ∨ q ∈ l.map (·.1)) :
            q = port.len ∨ q ∈ ((pos, i) :: l).map (·.1) := hq.imp_right (List.mem_cons_of_mem pos)
        refine ⟨.inr (by simp), fun p j hmem => ?_⟩
        rcases List.mem_cons.1 hmem with heq | hmem
        · cases heq
          exact ⟨next, hd, hlift hstart⟩
        · obtain ⟨n, hn, hnext⟩ := hclosed p j hmem
          exact ⟨n, hn, hlift hnext⟩

/-- What the static check gives at a decoded address: an instruction with legal operands that ends at such an address or at the
end of the Program (R103). -/
theorem decode_of_wellFormedProgram {port : ProgramPort} (hwf : wellFormedProgram port = true) {p : Nat}
    (hp : p ∈ instrStarts port) :
    ∃ i next, decode port p = .ok (i, next) ∧ i.wellFormed = true ∧ targetsOk (instrStarts port) i = true ∧
      (next = port.len ∨ next ∈ instrStarts port) := by
  unfold wellFormedProgram at hwf
  split at hwf
  next => cases hwf
  next l hl =>
    have hstarts : instrStarts port = l.map (·.1) := by simp [instrStarts, hl]
    obtain ⟨⟨q, i⟩, hmem, rfl⟩ := List.mem_map.1 (hstarts ▸ hp)
    obtain ⟨-, hclosed⟩ := linearDecode_closed hl
    obtain ⟨next, hd, hnext⟩ := hclosed q i hmem
    obtain ⟨hi, htarget⟩ : i.wellFormed = true ∧ targetsOk (instrStarts port) i = true := by
      simpa using List.all_eq_true.1 hwf _ hmem
    exact ⟨i, next, hd, hi, htarget, hstarts ▸ hnext⟩

theorem zero_boundary_of_wellFormedProgram {port : ProgramPort} (hwf : wellFormedProgram port = true) :
    0 = port.len ∨ 0 ∈ instrStarts port := by
  unfold wellFormedProgram at hwf
  split at hwf
  next => cases hwf
  next l hl =>
    obtain ⟨hstart, -⟩ := linearDecode_closed hl
    simpa [instrStarts, hl] using hstart

theorem mem_starts_of_takenTarget {starts : List Nat} {i : Instr} (h : targetsOk starts i = true) {s : State} {p : Nat}
    (ht : takenTarget i s = some p) : p ∈ starts := by
  cases i with
  | jump tgt =>
    cases ht
    simpa [targetsOk] using h
  | jumpIfZero tgt =>
    simp only [takenTarget] at ht
    split_ifs at ht
    cases ht
    simpa [targetsOk] using h
  | _ => cases ht

/-! ### A step of a checked Program -/

/-- Where a step of a checked Program stands on an instruction, it takes no fault of the decoder. -/
theorem step_at_start {s t : State} (hwf : wellFormedProgram s.port = true) (hp : s.pc ∈ instrStarts s.port)
    (h : step s = .next t) :
    ∃ i next, i.wellFormed = true ∧ targetsOk (instrStarts s.port) i = true ∧
      (next = s.progLen ∨ next ∈ instrStarts s.port) ∧
      ((∃ k, execFault i s = some k ∧ t = raise k s) ∨ (execFault i s = none ∧ t = effectOf i (setPc next s))) := by
  obtain ⟨i, next, hd, hi, htarget, hnext⟩ := decode_of_wellFormedProgram hwf hp
  rcases step_next_cases h with ⟨e, he, -⟩ | ⟨j, n, hj, hcases⟩
  · cases hd.symm.trans he
  · cases hd.symm.trans hj
    exact ⟨i, next, hi, htarget, hnext, hcases⟩

/-- At the end of the Program the fetch faults (40_decoder.md R59). -/
theorem step_at_end {s t : State} (hp : s.pc = s.progLen) (h : step s = .next t) : t = raise .outOfBounds s := by
  have hend : decode s.port s.pc = .error .outOfBounds := decode_opcode_outOfBounds (Nat.le_of_eq hp.symm)
  rcases step_next_cases h with ⟨e, he, rfl⟩ | ⟨i, next, hd, -⟩
  · cases hend.symm.trans he
    rfl
  · cases hend.symm.trans hd

/-- A target that passed the static check lies inside the Program, so rank 7 does not apply. -/
theorem execFault_ne_outOfBounds_of_checked {s : State} (hwf : wellFormedProgram s.port = true) {i : Instr}
    (htarget : targetsOk (instrStarts s.port) i = true) : execFault i s ≠ some .outOfBounds := by
  refine execFault_ne_outOfBounds ?_
  cases ht : takenTarget i s with
  | none => exact Nat.zero_le _
  | some p =>
    obtain ⟨_, _, hd, -⟩ := decode_of_wellFormedProgram hwf (mem_starts_of_takenTarget htarget ht)
    obtain ⟨hin, -⟩ := decode_ok_cases hd
    exact Nat.le_of_succ_le hin

/-- The cursor after an instruction of a checked Program: past it or at its target, a boundary either way. -/
theorem effectOf_atBoundary {s : State} {i : Instr} {next : Nat} (htarget : targetsOk (instrStarts s.port) i = true)
    (hnext : next = s.progLen ∨ next ∈ instrStarts s.port) : (effectOf i (setPc next s)).AtBoundary := by
  rw [State.AtBoundary, effectOf_setPc_pc]
  cases ht : takenTarget i s with
  | none => exact hnext
  | some p => exact .inr (mem_starts_of_takenTarget htarget ht)

/-- Settles O50: at the end the fetch faults; at an instruction the decoded operands are legal and both its end and its target
are boundaries. -/
theorem checkedProgramStaysOnBoundaries : Obligations.CheckedProgramStaysOnBoundaries := by
  intro s t hwf hn hboundary h
  rcases hboundary with hend | hstart
  · rw [step_at_end hend h]
    simp [hend]
  · obtain ⟨i, next, hi, htarget, hnext, ⟨k, hf, rfl⟩ | ⟨-, rfl⟩⟩ := step_at_start hwf hstart h
    · simp only [raise_faultKind, ← hf]
      exact ⟨fun ht => (ht rfl).elim, execFault_ne_invalidOpcode i s, execFault_ne_invalidLocalIndex hi s,
        fun hoob => (execFault_ne_outOfBounds_of_checked hwf htarget hoob).elim⟩
    · simp only [effectOf_faultKind, setPc_faultKind, hn]
      exact ⟨fun _ => effectOf_atBoundary htarget hnext, by simp, by simp, by simp⟩

/-! ### Runs of a checked Program -/

/-- What every step keeps holds after any number of steps. -/
theorem core_run_keeps {P : State → Prop} (hstep : ∀ s t, P s → step s = .next t → P t) {n : Nat} {s t : State}
    (hs : P s) (h : Sys2Proof.core.run n s = .next t) : P t := by
  induction n generalizing s with
  | zero => cases h; exact hs
  | succ n ih =>
    obtain ⟨u, hu, hrest⟩ := core_run_succ h
    exact ih (hstep s u hs hu) hrest

/-- The invariant of a checked Program's run: outside Faulted the cursor is at a boundary and no fault is shown. -/
structure Checked (s : State) : Prop where
  program : wellFormedProgram s.port = true
  boundary : s.runState ≠ .faulted → s.faultKind = none ∧ s.AtBoundary
  noInvalidOpcode : s.faultKind ≠ some .invalidOpcode
  noInvalidLocalIndex : s.faultKind ≠ some .invalidLocalIndex

theorem step_keeps_checked (s t : State) (hc : Checked s) (h : step s = .next t) : Checked t := by
  obtain ⟨hr, -⟩ := ready_of_step h
  obtain ⟨hn, hboundary⟩ := hc.boundary (by simp [hr])
  obtain ⟨hstays, hopcode, hindex, -⟩ := checkedProgramStaysOnBoundaries s t hc.program hn hboundary h
  exact {
    program := step_keeps_port h ▸ hc.program
    boundary := fun ht => ⟨by simpa [ht] using step_faulted_iff hn h, hstays ht⟩
    noInvalidOpcode := hopcode
    noInvalidLocalIndex := hindex }

theorem resetInput_checked {s : State} (hwf : wellFormedProgram s.port = true) : Checked (resetInput s) where
  program := hwf
  boundary _ := ⟨rfl, zero_boundary_of_wellFormedProgram hwf⟩
  noInvalidOpcode := by simp [resetInput, State.reset]
  noInvalidLocalIndex := by simp [resetInput, State.reset]

/-- Settles O51: every state the run reaches from reset is checked. -/
theorem checkedProgramNeverMisdecodes : Obligations.CheckedProgramNeverMisdecodes := by
  intro n s t hwf hreset h
  have hs : Checked s := hreset ▸ resetInput_checked hwf
  have ht : Checked t := core_run_keeps step_keeps_checked hs h
  exact ⟨ht.noInvalidOpcode, ht.noInvalidLocalIndex⟩

end Sys2Proof.Machine
end

section
/-! PROOFS. Frames (10_state.md §2, §3; 41_data_movement.md; 42_control.md; 43_arithmetic.md §2): what the whole effect of an
instruction leaves unchanged, and which instructions reach the registers. -/

namespace Sys2Proof.Machine

open Sys2Proof

theorem exec_keeps_memory {i : Instr} {s t : State} (h : exec i s = .next t) :
    (∀ a, t.prog.read a = s.prog.read a) ∧ t.progLen = s.progLen ∧ t.params = s.params := by
  obtain ⟨hprog, hrest⟩ := exec_keeps_program h
  exact ⟨fun a => by rw [hprog], hrest⟩

/-! ### The registers -/

theorem effectOf_locals {i : Instr} (hi : ∀ idx, i ≠ .storeLocal idx) (s : State) : (effectOf i s).locals = s.locals := by
  cases i with
  | storeLocal idx => exact (hi idx rfl).elim
  | _ => rfl

/-- StoreLocal puts the popped word whole into the register it names and into no other (10_state.md R16). -/
theorem getLocal_effectOf_storeLocal (idx : Byte) (s : State) (j : Fin nLocals) :
    getLocal j (effectOf (.storeLocal idx) s) = if (j : Nat) = idx.toNat then s.stack.getD 0 0 else getLocal j s := by
  simp only [effectOf, localsAfter, getLocal, Vector.get_eq_getElem, Vector.getElem_setIfInBounds, eq_comm]

/-- Only LoadLocal reads the register file. -/
theorem pushedBy_setLocals {i : Instr} (hi : ∀ idx, i ≠ .loadLocal idx) (l : Locals) (s : State) :
    pushedBy i (setLocals l s) = pushedBy i s := by
  cases i with
  | loadLocal idx => exact (hi idx rfl).elim
  | _ => rfl

theorem index_lt_of_wellFormed_loadLocal {idx : Byte} (h : (Instr.loadLocal idx).wellFormed = true) :
    idx.toNat < nLocals := of_decide_eq_true h

theorem exec_storeLocal_completed {idx : Byte} {s t : State} (h : exec (.storeLocal idx) s = .next t)
    (ht : t.runState ≠ .faulted) :
    ∃ v rest, s.stack = v :: rest ∧ t.stack = rest ∧
      ∀ j : Fin nLocals, getLocal j t = if (j : Nat) = idx.toNat then v else getLocal j s := by
  obtain ⟨hf, rfl⟩ := eq_effectOf_of_not_faulted h ht
  obtain ⟨-, hpops, -⟩ := execFault_eq_none hf
  have hone : 0 < s.stack.length := hpops
  obtain ⟨v, rest, hs⟩ := List.exists_cons_of_length_pos hone
  refine ⟨v, rest, hs, ?_, fun j => ?_⟩
  · simp only [effectOf, hs]; rfl
  · rw [getLocal_effectOf_storeLocal, hs]; rfl

theorem exec_loadLocal_completed {idx : Byte} {s t : State} (h : exec (.loadLocal idx) s = .next t)
    (ht : t.runState ≠ .faulted) : ∃ h : idx.toNat < nLocals, t.stack = getLocal ⟨idx.toNat, h⟩ s :: s.stack := by
  obtain ⟨hf, rfl⟩ := eq_effectOf_of_not_faulted h ht
  obtain ⟨hwf, -⟩ := execFault_eq_none hf
  have hidx := index_lt_of_wellFormed_loadLocal hwf
  exact ⟨hidx, by rw [effectOf_loadLocal hidx, setStack_stack]⟩

theorem getLocal_reset (j : Fin nLocals) : getLocal j State.reset = 0 := by
  simp [getLocal, State.reset, Vector.get_eq_getElem]

/-! ### The obligations of the family -/

/-- Settles O29: the effect of the four is one push onto what the pops leave. -/
theorem arithmeticFrame : Obligations.ArithmeticFrame := by
  intro i s t hi h
  obtain ⟨hprog, hlen, hparams⟩ := exec_keeps_memory h
  refine ⟨hprog, hlen, hparams, fun ht => ?_⟩
  obtain ⟨-, rfl⟩ := eq_effectOf_of_not_faulted h ht
  rcases hi with rfl | rfl | rfl | rfl <;> exact ⟨rfl, rfl, rfl, rfl, rfl, rfl⟩

/-- Settles O30: of the three only StoreLocal writes a register, the one it names. -/
theorem dataMovementFrame : Obligations.DataMovementFrame := by
  intro i s t hi h
  obtain ⟨hprog, hlen, hparams⟩ := exec_keeps_memory h
  refine ⟨hprog, hlen, hparams, fun ht => ?_⟩
  obtain ⟨-, rfl⟩ := eq_effectOf_of_not_faulted h ht
  rcases hi with ⟨imm, rfl⟩ | ⟨idx, rfl⟩ | ⟨idx, rfl⟩
  · exact ⟨rfl, rfl, rfl, rfl, fun _ _ => rfl, rfl⟩
  · refine ⟨rfl, rfl, rfl, rfl, fun j hj => ?_, rfl⟩
    rw [getLocal_effectOf_storeLocal, if_neg (hj idx rfl).symm]
  · exact ⟨rfl, rfl, rfl, rfl, fun _ _ => rfl, rfl⟩

/-- Settles O31: the effect of the three is a cursor, a pop or the status. -/
theorem controlFrame : Obligations.ControlFrame := by
  intro i s t hi h
  obtain ⟨hprog, hlen, hparams⟩ := exec_keeps_memory h
  refine ⟨hprog, hlen, hparams, fun ht => ?_⟩
  obtain ⟨-, rfl⟩ := eq_effectOf_of_not_faulted h ht
  rcases hi with rfl | ⟨tgt, rfl⟩ | ⟨tgt, rfl⟩
  · exact ⟨rfl, rfl, rfl, rfl, fun _ => rfl, fun hne => (hne rfl).elim⟩
  · exact ⟨rfl, rfl, rfl, rfl, fun he => (nomatch he), fun _ => rfl⟩
  · exact ⟨rfl, rfl, rfl, rfl, fun he => (nomatch he), fun _ => rfl⟩

/-- Settles O32: the effect's registers, the ranks and the effect from other registers, and the two register instructions. -/
theorem onlyStoreAndLoadReachTheRegisters : Obligations.OnlyStoreAndLoadReachTheRegisters := by
  refine ⟨?_, ?_, fun _ _ _ => exec_loadLocal_completed, ?_, getLocal_reset⟩
  · intro i s t hi h ht
    obtain ⟨-, rfl⟩ := eq_effectOf_of_not_faulted h ht
    exact effectOf_locals hi s
  · intro i s t l hi h
    rcases exec_next_cases h with ⟨k, hf, rfl⟩ | ⟨hf, rfl⟩
    · exact ⟨_, exec_of_fault (s := setLocals l s) hf, rfl, rfl, rfl, rfl⟩
    · refine ⟨_, exec_of_noFault (s := setLocals l s) hf, ?_, rfl, rfl, rfl⟩
      exact congrArg (· ++ s.stack.drop (popsOf (opcodeOf i))) (pushedBy_setLocals hi l s)
  · intro idx s t h ht
    obtain ⟨v, rest, hs, -, hlocals⟩ := exec_storeLocal_completed h ht
    exact ⟨v, rest, hs, hlocals⟩

/-- Settles O33: the depths and the entries below of the whole effect, and rank 5. -/
theorem stackEffectIsTheTable : Obligations.StackEffectIsTheTable := by
  intro i s
  constructor
  · intro t h ht
    obtain ⟨hf, rfl⟩ := eq_effectOf_of_not_faulted h ht
    obtain ⟨-, hpops, -⟩ := execFault_eq_none hf
    refine ⟨hpops, ?_, effectOf_stack_drop i s⟩
    rw [effectOf_depth]
    omega
  · intro hdepth hwf
    have hf : execFault i s = some .stackUnderflow := by simp [execFault, hwf, hdepth]
    exact raises_of_eq (exec_of_fault hf)

/-- Settles O34: the register just written holds the popped word, and the load pushes it back. -/
theorem storeThenLoadGivesTheValueBack : Obligations.StoreThenLoadGivesTheValueBack := by
  intro idx s t u _ hstore ht hload hu
  obtain ⟨v, rest, hs, hrest, hlocals⟩ := exec_storeLocal_completed hstore ht
  obtain ⟨hidx, hstack⟩ := exec_loadLocal_completed hload hu
  rw [hstack, hrest, hs, hlocals, if_pos rfl]

end Sys2Proof.Machine
end

section
/-! PROOFS. Fault causes (60_exceptions.md §1, §2): the condition under which each fault is the one a rank selects, where the
fetch runs past the end, and the priority table. -/

namespace Sys2Proof

/-! ### Where the decoder runs past the end (60_exceptions.md R82 a to c) -/

theorem memRead_one_iff {port : ProgramPort} {p : Nat} {b : Byte} :
    memRead port p 1 = some [b] ↔ p < port.len ∧ port.byteAt p = b := by
  simp [memRead_eq_some, @eq_comm _ b]

/-- An opcode with a row in the map, its operand bytes inside the Program, decodes. -/
theorem decode_ok_of_fits {port : ProgramPort} {p : Nat} (hp : p < port.len) (hop : (port.byteAt p).toNat < 10)
    (hfits : p + 1 + Machine.operandBytes (port.byteAt p).toNat ≤ port.len) : ∃ r, decode port p = .ok r := by
  have hfetch : p + 1 ≤ port.len := hp
  rw [decode_eq, if_pos hfetch]
  generalize (port.byteAt p).toNat = op at hop hfits
  rcases Nat.lt_or_ge op 6 with hlow | hhigh
  · rcases Nat.eq_zero_or_pos op with rfl | hpos
    · exact ⟨_, rfl⟩
    · interval_cases op <;> exact ⟨_, if_pos hfits⟩
  · interval_cases op <;> exact ⟨_, rfl⟩

theorem decode_outOfBounds_iff {port : ProgramPort} {p : Nat} :
    decode port p = .error .outOfBounds ↔
      port.len ≤ p ∨ (p < port.len ∧ (port.byteAt p).toNat < 10 ∧
        port.len < p + 1 + Machine.operandBytes (port.byteAt p).toNat) := by
  constructor
  · intro h
    by_contra hnot
    have hp : p < port.len := by omega
    rcases Nat.lt_or_ge (port.byteAt p).toNat 10 with hop | hop
    · obtain ⟨r, hr⟩ := decode_ok_of_fits hp hop (by omega)
      cases h.symm.trans hr
    · cases h.symm.trans (decode_invalidOpcode_iff.2 ⟨hp, hop⟩)
  · rintro (h | ⟨hp, -, h⟩)
    · exact decode_opcode_outOfBounds h
    · exact Machine.decode_operand_outOfBounds hp h

theorem operandBytes_cases {op : Nat} (h : Machine.operandBytes op ≠ 0) :
    (op = 1 ∧ Machine.operandBytes op = 8) ∨ (2 ≤ op ∧ op ≤ 5 ∧ Machine.operandBytes op = 1) := by
  unfold Machine.operandBytes at h ⊢
  split_ifs at h ⊢ with h1 h2
  · exact .inl ⟨h1, rfl⟩
  · exact .inr ⟨h2.1, h2.2, rfl⟩
  · exact (h rfl).elim

/-- The three places of the fetch: the opcode byte, a one-byte operand, the literal. -/
theorem decode_outOfBounds_places {port : ProgramPort} {p : Nat} :
    decode port p = .error .outOfBounds ↔
      port.len ≤ p ∨
      (∃ op : Byte, memRead port p 1 = some [op] ∧ 2 ≤ op.toNat ∧ op.toNat ≤ 5 ∧ port.len < p + 2) ∨
      (memRead port p 1 = some [0x01] ∧ port.len < p + 9) := by
  rw [decode_outOfBounds_iff]
  constructor
  · rintro (h | ⟨hp, -, h⟩)
    · exact .inl h
    · rcases operandBytes_cases (op := (port.byteAt p).toNat) (by omega) with ⟨hop, hn⟩ | ⟨hlo, hhi, hn⟩
      · exact .inr (.inr ⟨memRead_one_iff.2 ⟨hp, BitVec.eq_of_toNat_eq hop⟩, by omega⟩)
      · exact .inr (.inl ⟨_, memRead_one_iff.2 ⟨hp, rfl⟩, hlo, hhi, by omega⟩)
  · rintro (h | ⟨op, hread, hlo, hhi, h⟩ | ⟨hread, h⟩)
    · exact .inl h
    · obtain ⟨hp, rfl⟩ := memRead_one_iff.1 hread
      have hn : Machine.operandBytes (port.byteAt p).toNat = 1 := by
        rw [Machine.operandBytes, if_neg (by omega), if_pos ⟨hlo, hhi⟩]
      exact .inr ⟨hp, by omega, by omega⟩
    · obtain ⟨hp, hop⟩ := memRead_one_iff.1 hread
      exact .inr ⟨hp, by simp [hop], by simpa [hop, Machine.operandBytes] using h⟩

end Sys2Proof

namespace Sys2Proof.Machine

open Sys2Proof

/-! ### The rank that selects each fault of the execute stage -/

theorem execFault_eq_invalidLocalIndex_iff {i : Instr} {s : State} :
    execFault i s = some .invalidLocalIndex ↔ i.wellFormed = false := by
  cases hwf : i.wellFormed with
  | true => simpa using execFault_ne_invalidLocalIndex hwf s
  | false => simp [execFault, hwf]

theorem execFault_eq_stackUnderflow_iff {i : Instr} {s : State} :
    execFault i s = some .stackUnderflow ↔ i.wellFormed = true ∧ s.depth < popsOf (opcodeOf i) := by
  cases hwf : i.wellFormed with
  | true =>
    simp only [execFault, hwf, Bool.true_eq_false, if_false, true_and]
    split_ifs with hpops <;> simp [hpops]
  | false => simp [execFault, hwf]

theorem execFault_eq_outOfBounds_iff {i : Instr} {s : State} :
    execFault i s = some .outOfBounds ↔
      (∃ tgt : Byte, i = .jump tgt ∧ s.progLen < tgt.toNat) ∨
      (∃ (tgt : Byte) (rest : List Word), i = .jumpIfZero tgt ∧ s.stack = 0 :: rest ∧ s.progLen < tgt.toNat) := by
  cases i with
  | jump tgt => simp [execFault_jump]
  | jumpIfZero tgt => rcases hs : s.stack with _ | ⟨v, rest⟩ <;> simp [execFault_jumpIfZero, State.depth, hs]
  | _ => exact iff_of_false (execFault_ne_outOfBounds (Nat.zero_le _)) (by simp)

/-- Within its capacity a stack is full only where nothing was popped from it (60_exceptions.md R84). -/
theorem no_pops_of_execFault_stackOverflow {i : Instr} {s : State} (hb : s.DepthBounded)
    (h : execFault i s = some .stackOverflow) :
    i.wellFormed = true ∧ pushesOf (opcodeOf i) = 1 ∧ popsOf (opcodeOf i) = 0 ∧ s.params.stackDepth = some s.depth := by
  unfold execFault at h
  split_ifs at h with hwf hpops hzero htarget hfull <;> simp only [Option.some.injEq, reduceCtorEq] at h
  obtain ⟨hpush, hcap⟩ := hfull
  have hle : s.depth ≤ s.depth - popsOf (opcodeOf i) := hb _ hcap
  have hnone : popsOf (opcodeOf i) = 0 := by omega
  exact ⟨by simpa using hwf, hpush, hnone, by simpa [hnone] using hcap⟩

theorem execFault_eq_stackOverflow_iff {i : Instr} {s : State} (hb : s.DepthBounded) :
    execFault i s = some .stackOverflow ↔
      s.params.stackDepth = some s.depth ∧
        ((∃ imm, i = .pushConst imm) ∨ ∃ idx : Byte, i = .loadLocal idx ∧ idx.toNat < nLocals) := by
  constructor
  · intro h
    obtain ⟨hwf, hpush, hpops, hfull⟩ := no_pops_of_execFault_stackOverflow hb h
    refine ⟨hfull, ?_⟩
    cases i with
    | pushConst v => exact .inl ⟨v, rfl⟩
    | loadLocal idx => exact .inr ⟨idx, rfl, index_lt_of_wellFormed_loadLocal hwf⟩
    | halt | storeLocal | jump | jumpIfZero => simp [pushesOf, opcodeOf] at hpush
    | mul | rem | lessThan | increment => simp [popsOf, opcodeOf] at hpops
  · rintro ⟨hfull, ⟨v, rfl⟩ | ⟨idx, rfl, hidx⟩⟩
    · rw [execFault_pushConst, if_pos hfull]
    · rw [execFault_loadLocal, if_neg (Nat.not_le.2 hidx), if_pos hfull]

/-! ### The step and the priority table -/

/-- From a Ready state that shows no fault, a step raises the fault of its decoding or of the instruction decoded. -/
theorem raises_step_iff {s : State} (hr : s.Ready) (hn : s.faultKind = none) {k : FaultKind} :
    Raises (step s) k s ↔
      (∃ e, decode s.port s.pc = .error e ∧ decodeFault e = k) ∨
      ∃ i next, decode s.port s.pc = .ok (i, next) ∧ execFault i s = some k := by
  rcases step_ready hr with ⟨e, hd, hs⟩ | ⟨i, next, hd, hs⟩
  · rw [hs, hd, raises_raise_iff, eq_comm]
    simp
  · have hexec : Raises (step s) k s ↔ execFault i s = some k := by
      rw [hs]
      exact raises_exec_iff (s := setPc next s) hn
    rw [hexec, hd]
    simp

theorem decodeFault_eq_outOfBounds {e : DecodeError} : decodeFault e = .outOfBounds ↔ e = .outOfBounds := by
  cases e <;> simp [decodeFault]

/-- The ranks 4, 6 and 7 of the table, read off the bytes, are those read off the instruction the bytes decode to. -/
theorem ranks_of_decode_ok {s : State} {i : Instr} {next : Nat} (hd : decode s.port s.pc = .ok (i, next)) :
    ((opcodeOf i = 2 ∨ opcodeOf i = 3) ∧ 8 ≤ (s.port.byteAt (s.pc + 1)).toNat ↔ i.wellFormed = false) ∧
      (opcodeOf i = 7 ↔ i = .rem) ∧
      ((opcodeOf i = 4 ∨ opcodeOf i = 5 ∧ s.stack.head? = some 0) ∧ s.progLen < (s.port.byteAt (s.pc + 1)).toNat ↔
        s.progLen < (takenTarget i s).getD 0) := by
  obtain ⟨-, -, -, hcases⟩ := decode_ok_cases hd
  rcases hcases with ⟨-, rfl⟩ | ⟨-, rfl⟩ | ⟨-, rfl⟩ | ⟨-, rfl⟩ | ⟨-, rfl⟩ | ⟨-, rfl⟩ | ⟨-, rfl⟩ | ⟨-, rfl⟩ | ⟨-, rfl⟩ | ⟨-, rfl⟩
  case inr.inr.inr.inr.inr.inl =>
    by_cases hz : s.stack.head? = some 0#64 <;> simp [opcodeOf, Instr.wellFormed, takenTarget, hz]
  all_goals simp [opcodeOf, Instr.wellFormed, takenTarget, -port_byteAt]

/-- The table is read from the top. -/
theorem firstOf_cons (p : Prop) [Decidable p] (k : FaultKind) (l : List (Bool × FaultKind)) :
    (((decide p, k) :: l).find? (·.1)).map (·.2) = if p then some k else (l.find? (·.1)).map (·.2) := by
  by_cases hp : p <;> simp [hp]

/-- Where an instruction decodes, the first three ranks are passed and the others are those of its execute stage. -/
theorem firstFault_of_decode_ok {s : State} {i : Instr} {next : Nat} (hd : decode s.port s.pc = .ok (i, next)) :
    firstFault s = execFault i s := by
  obtain ⟨hin, hnext, hlength, -⟩ := decode_ok_cases hd
  obtain ⟨hindex, hdivisor, htarget⟩ := ranks_of_decode_ok hd
  have hfetch : ¬ s.progLen ≤ s.pc := Nat.not_le.2 hin
  have hrow : ¬ 10 ≤ opcodeOf i := Nat.not_le.2 (opcodeOf_lt i)
  have hoperand : ¬ s.progLen < s.pc + 1 + operandBytes (opcodeOf i) := by
    rw [length_eq_operandBytes, ← Nat.add_assoc] at hlength
    exact Nat.not_lt.2 (hlength ▸ hnext)
  simp only [firstFault, rankedFaults, firstOf_cons, ← decode_ok_opcodeOf hd, hfetch, hrow, hoperand, if_false, hindex,
    hdivisor, htarget]
  rfl

/-- Where decoding fails, it fails for the first of the first three ranks that holds. -/
theorem firstFault_of_decode_error {s : State} {e : DecodeError} (hd : decode s.port s.pc = .error e) :
    firstFault s = some (decodeFault e) := by
  simp only [firstFault, rankedFaults, firstOf_cons]
  cases e with
  | outOfBounds =>
    rcases decode_outOfBounds_iff.1 hd with hend | ⟨hp, hrow, hcut⟩
    · exact if_pos hend
    · exact (if_neg (Nat.not_le.2 hp)).trans ((if_neg (Nat.not_le.2 hrow)).trans (if_pos hcut))
  | invalidOpcode =>
    obtain ⟨hp, hrow⟩ := decode_invalidOpcode_iff.1 hd
    exact (if_neg (Nat.not_le.2 hp)).trans (if_pos hrow)

/-! ### The obligations of the family -/

/-- Settles O41: rank 5 holds of the instructions the table gives a pop. -/
theorem stackUnderflowCause : Obligations.StackUnderflowCause := by
  intro i s hn
  rw [raises_exec_iff hn, execFault_eq_stackUnderflow_iff]
  cases i <;> simp [Instr.wellFormed, popsOf, opcodeOf, Nat.lt_succ_iff, Nat.le_one_iff_eq_zero_or_eq_one]

/-- Settles O42: rank 4 is the operand's own legality. -/
theorem invalidLocalIndexCause : Obligations.InvalidLocalIndexCause := by
  intro i s hn
  rw [raises_exec_iff hn, execFault_eq_invalidLocalIndex_iff]
  cases i <;> simp [Instr.wellFormed]

/-- Settles O44: rank 8 on a stack within its capacity. -/
theorem stackOverflowCause : Obligations.StackOverflowCause := by
  intro i s hn hb
  rw [raises_exec_iff hn, execFault_eq_stackOverflow_iff hb]

/-- Settles O43: the three places of the fetch, and the two jumps of rank 7 as the bytes they decode from. -/
theorem outOfBoundsCause : Obligations.OutOfBoundsCause := by
  intro s hr hn
  have hfetch : (∃ e, decode s.port s.pc = .error e ∧ decodeFault e = .outOfBounds) ↔
      decode s.port s.pc = .error .outOfBounds := by simp [decodeFault_eq_outOfBounds]
  have hjumps : (∃ i next, decode s.port s.pc = .ok (i, next) ∧ execFault i s = some .outOfBounds) ↔
      (∃ tgt : Byte, memRead s.port s.pc 2 = some [0x04, tgt] ∧ s.progLen < tgt.toNat) ∨
      (∃ (tgt : Byte) (rest : List Word), memRead s.port s.pc 2 = some [0x05, tgt] ∧ s.stack = 0 :: rest ∧
        s.progLen < tgt.toNat) := by
    have hjump (tgt : Byte) : (∃ next, decode s.port s.pc = .ok (.jump tgt, next)) ↔
        memRead s.port s.pc 2 = some [0x04, tgt] := decoded_iff_encode_read
    have hbranch (tgt : Byte) : (∃ next, decode s.port s.pc = .ok (.jumpIfZero tgt, next)) ↔
        memRead s.port s.pc 2 = some [0x05, tgt] := decoded_iff_encode_read
    simp only [execFault_eq_outOfBounds_iff, ← hjump, ← hbranch]
    constructor
    · rintro ⟨i, next, hd, ⟨tgt, rfl, hpast⟩ | ⟨tgt, rest, rfl, hs, hpast⟩⟩
      · exact .inl ⟨tgt, ⟨next, hd⟩, hpast⟩
      · exact .inr ⟨tgt, rest, ⟨next, hd⟩, hs, hpast⟩
    · rintro (⟨tgt, ⟨next, hd⟩, hpast⟩ | ⟨tgt, rest, ⟨next, hd⟩, hs, hpast⟩)
      · exact ⟨_, next, hd, .inl ⟨tgt, rfl, hpast⟩⟩
      · exact ⟨_, next, hd, .inr ⟨tgt, rest, rfl, hs, hpast⟩⟩
  rw [raises_step_iff hr hn, hfetch, hjumps, decode_outOfBounds_places]
  simp only [port_len, or_assoc]

/-- Settles O46: the table's fault is the decoder's or the execute stage's; where none holds the step is the whole effect. -/
theorem everyStepFollowsThePriorityTable : Obligations.EveryStepFollowsThePriorityTable := by
  intro s hr
  rcases step_ready hr with ⟨e, hd, hs⟩ | ⟨i, next, hd, hs⟩
  · rw [firstFault_of_decode_error hd]
    exact raises_of_eq hs
  · rw [firstFault_of_decode_ok hd]
    cases hf : execFault i s with
    | some k => exact raises_of_eq (hs.trans (exec_of_fault (s := setPc next s) hf))
    | none => exact ⟨_, hs.trans (exec_of_noFault hf), effectOf_runState_ne_faulted (s := setPc next s) hr.1, rfl⟩

end Sys2Proof.Machine
end

section
/-! PROOFS. Arithmetic laws (43_arithmetic.md §1): `wrap64` as congruence modulo `2^64`, the truncated remainder, and Rem. -/

namespace Sys2Proof.Machine

open Sys2Proof

/-! ### Wrapping (43_arithmetic.md R70) -/

theorem wrap64_toInt_modEq (n : Int) : (wrap64 n).toInt ≡ n [ZMOD 2 ^ 64] := by
  rw [wrap64, BitVec.toInt_ofInt]
  exact Int.bmod_emod

@[simp] theorem wrap64_toInt_self (w : Word) : wrap64 w.toInt = w := BitVec.ofInt_toInt

theorem wrap64_toNat_self (w : Word) : wrap64 (w.toNat : Int) = w := by
  rw [wrap64, BitVec.ofInt_natCast, BitVec.ofNat_toNat, BitVec.setWidth_eq]

/-- Two integers wrap to one word exactly when they are congruent. -/
theorem wrap64_eq_iff {m n : Int} : wrap64 m = wrap64 n ↔ m ≡ n [ZMOD 2 ^ 64] := by
  constructor
  · intro h
    exact (wrap64_toInt_modEq m).symm.trans (h ▸ wrap64_toInt_modEq n)
  · intro h
    have hmod : m % (2 ^ 64 : Nat) = n % (2 ^ 64 : Nat) := h
    refine BitVec.eq_of_toInt_eq ?_
    rw [wrap64, wrap64, BitVec.toInt_ofInt, BitVec.toInt_ofInt, ← Int.emod_bmod m, ← Int.emod_bmod n, hmod]

/-- Read as signed or as unsigned, a word is the same modulo `2^64`. -/
theorem toInt_modEq_toNat (w : Word) : w.toInt ≡ (w.toNat : Int) [ZMOD 2 ^ 64] :=
  wrap64_eq_iff.1 (by rw [wrap64_toInt_self, wrap64_toNat_self])

/-! ### The truncated remainder (43_arithmetic.md R72, R73) -/

/-- Decision D9 gives `MIN` by `-1` what the truncated remainder gives it. -/
theorem trem_eq_wrap64 (a b : Word) : trem a b = wrap64 (a.toInt.tmod b.toInt) := by
  unfold trem
  split
  next h =>
    obtain ⟨rfl, rfl⟩ := h
    decide
  next => rfl

theorem natAbs_toInt_le (w : Word) : w.toInt.natAbs ≤ 2 ^ 63 := by
  have hlo := BitVec.le_toInt w
  have hhi := BitVec.toInt_lt (x := w)
  omega

theorem natAbs_tmod_toInt_lt {b : Word} (hb : b ≠ 0) (a : Word) : (a.toInt.tmod b.toInt).natAbs < b.toInt.natAbs := by
  have hpos : 0 < b.toInt.natAbs := Int.natAbs_pos.2 fun h => hb (BitVec.eq_of_toInt_eq (h.trans BitVec.toInt_zero.symm))
  rw [Int.natAbs_tmod]
  exact Nat.mod_lt _ hpos

/-- The remainder is below its divisor in magnitude, so wrapping cuts nothing off. -/
theorem trem_toInt {b : Word} (hb : b ≠ 0) (a : Word) : (trem a b).toInt = a.toInt.tmod b.toInt := by
  have hmag : (a.toInt.tmod b.toInt).natAbs < b.toInt.natAbs := natAbs_tmod_toInt_lt hb a
  have hdivisor := natAbs_toInt_le b
  rw [trem_eq_wrap64]
  exact BitVec.toInt_ofInt_eq_self (by decide) (by omega) (by omega)

theorem tmod_neg_iff {m n : Int} (h : m.tmod n ≠ 0) : m.tmod n < 0 ↔ m < 0 := by
  have hsign : (m.tmod n).sign = m.sign := by
    rw [Int.sign_tmod, if_neg fun hdvd => h (Int.tmod_eq_zero_of_dvd hdvd)]
  rw [← Int.sign_eq_neg_one_iff_neg, hsign, Int.sign_eq_neg_one_iff_neg]

/-! ### The obligations of the family -/

/-- Settles O35: congruence decides the wrapped word, and products and successors of congruent integers are congruent. -/
theorem wrapIsTheLowSixtyFourBits : Obligations.WrapIsTheLowSixtyFourBits := by
  refine ⟨fun n => ⟨wrap64_toInt_modEq n, fun w hw => ?_⟩, fun a b => ?_, fun a => ?_⟩
  · rw [← wrap64_toInt_self w]
    exact wrap64_eq_iff.2 hw
  · exact wrap64_eq_iff.2 ((toInt_modEq_toNat a).mul (toInt_modEq_toNat b))
  · exact wrap64_eq_iff.2 ((toInt_modEq_toNat a).add_right 1)

/-- Settles O36: the laws of the truncated remainder of integers, and the four sign combinations by evaluation. -/
theorem remainderIsTruncated : Obligations.RemainderIsTruncated := by
  refine ⟨fun a b hb => ?_, by decide, by decide, by decide, by decide⟩
  rw [trem_toInt hb]
  refine ⟨Int.tmod_def _ _, Int.natAbs_tmod _ _, natAbs_tmod_toInt_lt hb a, tmod_neg_iff, fun ha => ?_⟩
  rw [trem_eq_wrap64, ha]
  simp [wrap64]

/-- Settles O26: Rem is the two-operand shape with the truncated remainder, a zero divisor its own fault, and the byte 07 its
whole encoding. -/
theorem remPushesTheTruncatedRemainder : Obligations.RemPushesTheTruncatedRemainder := by
  refine ⟨?_, ?_, ?_, ?_, ?_⟩
  · intro s a b rest hb hs hne
    exact finish_binaryOp_result hb hs (remOrFault_ok.2 ⟨hne, (trem_eq_wrap64 a b).symm⟩)
  · exact fun _ _ _ => exec_rem_divisionByZero
  · exact fun _ => finish_binaryOp_underflow _
  · exact stepsAs_encode .rem
  · exact fetchFaults_of_operandBytes rfl

/-- Settles O37: the named case of the remainder, which is 0. -/
theorem remOfMinByMinusOneIsZero : Obligations.RemOfMinByMinusOneIsZero := by
  intro s rest hb hs
  exact finish_binaryOp_result hb hs (remOrFault_ok.2 ⟨by decide, by decide⟩)

end Sys2Proof.Machine
end

section
/-! PROOFS. Data movement and the jumps (41_data_movement.md; 42_control.md): each instruction's effect, its faults, and its
fetch half. -/

namespace Sys2Proof.Machine

open Sys2Proof

/-- Settles O19: the push with room and without, and the opcode 01 with its eight operand bytes. -/
theorem pushConstPushesTheLiteral : Obligations.PushConstPushesTheLiteral := by
  refine ⟨fun imm s => ⟨fun hroom => ?_, fun hfull => ?_⟩, fun b0 b1 b2 b3 b4 b5 b6 b7 => ?_, ?_⟩
  · exact (exec_pushConst imm s).trans (congrArg _ (afterPush_room hroom imm))
  · exact raises_of_eq ((exec_pushConst imm s).trans (congrArg _ (afterPush_full hfull imm)))
  · rw [← encode_pushConst_le64]
    exact stepsAs_encode _
  · exact fetchFaults_of_operandBytes rfl

/-- An illegal index is reported before the stack is touched (decision D7). -/
theorem raises_invalidLocalIndex {i : Instr} (hwf : i.wellFormed = false) (s : State) :
    Raises (exec i s) .invalidLocalIndex s :=
  raises_of_eq (exec_of_fault (execFault_eq_invalidLocalIndex_iff.2 hwf))

theorem raises_stackUnderflow {i : Instr} {s : State} (hwf : i.wellFormed = true) (hdepth : s.depth < popsOf (opcodeOf i)) :
    Raises (exec i s) .stackUnderflow s :=
  raises_of_eq (exec_of_fault (execFault_eq_stackUnderflow_iff.2 ⟨hwf, hdepth⟩))

theorem depth_lt_one_of_nil {s : State} (hs : s.stack = []) : s.depth < 1 := by simp [State.depth, hs]

/-- Settles O20: a pop into the register, the index tested first, and the opcode 02 with its index byte. -/
theorem storeLocalPopsIntoTheRegister : Obligations.StoreLocalPopsIntoTheRegister := by
  refine fun idx => ⟨fun s v rest hidx hs => ?_, fun s hidx => ?_, fun s hidx hs => ?_, ?_, ?_⟩
  · rw [exec_storeLocal, dif_pos hidx, hs]
    rfl
  · exact raises_invalidLocalIndex (i := .storeLocal idx) (decide_eq_false (Nat.not_lt.2 hidx)) s
  · exact raises_stackUnderflow (decide_eq_true hidx) (depth_lt_one_of_nil hs)
  · exact stepsAs_encode (.storeLocal idx)
  · exact fetchFaults_of_operandBytes rfl

/-- Settles O21: a push of the register, the index tested first, and the opcode 03 with its index byte. -/
theorem loadLocalPushesTheRegister : Obligations.LoadLocalPushesTheRegister := by
  refine fun idx => ⟨fun s hidx hroom => ?_, fun s hidx => ?_, fun s hidx hfull => ?_, ?_, ?_⟩
  · rw [exec_loadLocal, dif_pos hidx, afterPush_room hroom]
    rfl
  · exact raises_invalidLocalIndex (i := .loadLocal idx) (decide_eq_false (Nat.not_lt.2 hidx)) s
  · refine raises_of_eq ?_
    rw [exec_loadLocal, dif_pos hidx, afterPush_full hfull]
  · exact stepsAs_encode (.loadLocal idx)
  · exact fetchFaults_of_operandBytes rfl

/-- Settles O23: the repositioning inside the Program and past its end, and the opcode 04 with its target byte. -/
theorem jumpSetsTheCursor : Obligations.JumpSetsTheCursor := by
  refine fun tgt => ⟨fun s hin => ?_, fun s hpast => ?_, ?_, ?_⟩
  · rw [exec_jump, afterPosition_inside hin]
    rfl
  · exact exec_jump_outOfBounds hpast
  · exact stepsAs_encode (.jump tgt)
  · exact fetchFaults_of_operandBytes rfl

/-- Settles O24: the taken jump, the one not taken, the empty stack, and the opcode 05 with its target byte. -/
theorem jumpIfZeroPopsAndTests : Obligations.JumpIfZeroPopsAndTests := by
  refine fun tgt => ⟨fun s rest hs hin => ?_, fun s v rest hs hv => ?_, fun s hs => ?_, fun s rest hs hpast => ?_, ?_, ?_⟩
  · simp only [exec_jumpIfZero, hs, if_true, afterPosition_inside hin]
    rfl
  · simp only [exec_jumpIfZero, hs, if_neg hv]
    rfl
  · exact raises_stackUnderflow rfl (depth_lt_one_of_nil hs)
  · exact exec_jumpIfZero_outOfBounds hs hpast
  · exact stepsAs_encode (.jumpIfZero tgt)
  · exact fetchFaults_of_operandBytes rfl

end Sys2Proof.Machine
end

section
/-! PROOFS. Reset and runs (70_reset_and_hazards.md; 40_decoder.md R61): the reset values, what the host reads, and a run with
fuel as the machine's own steps. -/

namespace Sys2Proof.Machine

open Sys2Proof

/-! ### What the host reads -/

theorem outcomeOf_running {s : State} (hr : s.runState = .running) : outcomeOf s = none := by simp [outcomeOf, hr]

theorem outcomeOf_halted {s : State} (hr : s.runState = .halted) :
    outcomeOf s = some (.halted { stack := s.stack.reverse, locals := s.locals }) := by simp [outcomeOf, snapshot, hr]

theorem outcomeOf_faulted {s : State} (hr : s.runState = .faulted) : outcomeOf s = some (.faulted s.faultKind) := by
  simp [outcomeOf, hr]

theorem snapshot_eq_none {s : State} (hr : s.runState ≠ .halted) : snapshot s = none := by
  unfold snapshot
  split
  next h => exact (hr h).elim
  next => rfl

/-! ### Fuel -/

/-- A run that ended within its fuel did so in a state the machine's own steps reach. -/
theorem reach_of_runSteps_ended {n : Nat} {s : State} {r : RunResult} (h : runSteps n s = .ended r) :
    ∃ k t, k ≤ n ∧ Sys2Proof.core.run k s = .next t ∧ outcomeOf t = some r := by
  induction n generalizing s with
  | zero =>
    cases ho : outcomeOf s with
    | none => cases (runSteps_zero ho).symm.trans h
    | some r' =>
      cases (runSteps_ended ho 0).symm.trans h
      exact ⟨0, s, le_rfl, rfl, ho⟩
  | succ n ih =>
    cases ho : outcomeOf s with
    | none =>
      cases hs : step s with
      | next u =>
        obtain ⟨k, t, hk, hrun, ht⟩ := ih ((runSteps_next ho hs n).symm.trans h)
        exact ⟨k + 1, t, Nat.succ_le_succ hk, (core_run_next hs k).trans hrun, ht⟩
      | fault f => simp [runSteps, ho, hs] at h
      | refused x => simp [runSteps, ho, hs] at h
    | some r' =>
      cases (runSteps_ended ho (n + 1)).symm.trans h
      exact ⟨0, s, Nat.zero_le _, rfl, ho⟩

/-- A state that delivers a result, reached within the fuel, ends the run with that result. -/
theorem runSteps_ended_of_reach {n k : Nat} {s t : State} {r : RunResult} (hk : k ≤ n)
    (hrun : Sys2Proof.core.run k s = .next t) (ht : outcomeOf t = some r) : runSteps n s = .ended r := by
  induction k generalizing n s with
  | zero =>
    cases hrun
    exact runSteps_ended ht n
  | succ k ih =>
    obtain ⟨u, hs, hrest⟩ := core_run_succ hrun
    obtain ⟨hr, -⟩ := ready_of_step hs
    obtain ⟨m, rfl⟩ : ∃ m, n = m + 1 := ⟨n - 1, by omega⟩
    exact (runSteps_next (outcomeOf_running hr) hs m).trans (ih (Nat.le_of_succ_le_succ hk) hrest)

theorem run_of_reset {s : State} (hs : s = resetInput s) (n : Nat) : run n s = runSteps n s := if_pos hs

theorem run_of_not_reset {s : State} (hs : s ≠ resetInput s) (n : Nat) : run n s = .refused .notResetState := if_neg hs

/-! ### The obligations of the family -/

/-- Settles O56: both directions between fuel and steps; a run that ended was started from the reset state. -/
theorem runDeliversExactlyWhatTheStepsReach : Obligations.RunDeliversExactlyWhatTheStepsReach := by
  intro n s r
  by_cases hs : s = resetInput s
  · rw [run_of_reset hs]
    exact ⟨fun h => ⟨hs, reach_of_runSteps_ended h⟩, fun ⟨_, _, _, hk, hrun, ht⟩ => runSteps_ended_of_reach hk hrun ht⟩
  · rw [run_of_not_reset hs]
    exact ⟨fun h => (nomatch h), fun ⟨h, _⟩ => (hs h).elim⟩

/-- Settles O55: the steps that ended the run are within the larger fuel too. -/
theorem moreFuelGivesTheSameResult : Obligations.MoreFuelGivesTheSameResult := by
  intro n k s r h
  obtain ⟨hs, j, t, hj, hrun, ht⟩ := (runDeliversExactlyWhatTheStepsReach n s r).1 h
  exact (runDeliversExactlyWhatTheStepsReach (n + k) s r).2 ⟨hs, j, t, Nat.le_add_right_of_le hj, hrun, ht⟩

/-- Settles O52: the reset state field by field, and that the reset input keeps the run's arguments only. -/
theorem resetLeavesTheResetValues : Obligations.ResetLeavesTheResetValues :=
  ⟨⟨rfl, getLocal_reset, rfl, rfl, rfl⟩, fun _ => ⟨rfl, getLocal_reset, rfl, rfl, rfl, rfl, rfl, rfl⟩⟩

/-- Settles O53: what is read in each of the three run states. -/
theorem hostReadsSnapshotOrKind : Obligations.HostReadsSnapshotOrKind :=
  fun _ => ⟨fun hr => ⟨outcomeOf_running hr, snapshot_eq_none (by simp [hr])⟩, outcomeOf_halted,
    fun hr => ⟨outcomeOf_faulted hr, snapshot_eq_none (by simp [hr])⟩⟩

/-- Settles O54: the run's own test of its start. -/
theorem runFromAnotherStateIsRefused : Obligations.RunFromAnotherStateIsRefused :=
  fun n _ hs => run_of_not_reset hs n

theorem runStateCode_injective (r r' : RunState) : runStateCode r = runStateCode r' → r = r' := by
  cases r <;> cases r' <;> decide

theorem faultCode_injective (k k' : Option FaultKind) : faultCode k = faultCode k' → k = k' := by
  rcases k with _ | ⟨_ | _ | _ | _ | _ | _⟩ <;> rcases k' with _ | ⟨_ | _ | _ | _ | _ | _⟩ <;> decide

/-- Settles O57: the two code tables, value by value. -/
theorem statusCodesAreDistinct : Obligations.StatusCodesAreDistinct := by
  refine ⟨runStateCode_injective, fun r => ?_, faultCode_injective, fun k => ?_⟩
  · cases r <;> decide
  · rcases k with _ | k
    · decide
    · cases k <;> decide

end Sys2Proof.Machine
end
